-- ==== Sys2Proof/Word.lean ====
section
/-! DEFINITION. The machine's word: a Value, an Address and an instruction word are all 16-bit patterns
(00_scope.md R5, R8), and a register number is a 3-bit pattern (30_encoding.md R62). Sums are BitVec sums, so
they wrap modulo 2^16 (R9). -/

namespace Sys2Proof

/-- A Value, an Address or an instruction word: 16 bits (R5: XLEN, ALEN, CELL, ILEN). -/
abbrev Word := BitVec 16

/-- A register number: a three-bit field that selects x[0] to x[7] by its unsigned value (R62). -/
abbrev Reg := BitVec 3

end Sys2Proof
end

