-- ==== Sys2Proof/Syntax.lean ====
section
/-! DEFINITION. The instructions: one constructor per row of spec/opcode_table.json, in the table's order
(30_encoding.md R70). An operand has the type of its field, so every operand value is one the encoding admits.
Bits a row does not read (R73) are no operand. The two undefined rows carry the whole word, because the decode
error records it in fault_ir (60_exceptions.md R141; entry 11). -/

namespace Sys2Proof

inductive Instr where
  /-- BR: n, z, p are bits 11, 10, 9 (R69); R120. -/
  | br (n z p : Bool) (off9 : BitVec 9)
  /-- ADD, register form (bit 5 = 0); R100. -/
  | addReg (dr sr1 sr2 : Reg)
  /-- ADD, immediate form (bit 5 = 1); R101. -/
  | addImm (dr sr1 : Reg) (imm5 : BitVec 5)
  /-- LD, PC-relative load; R110. -/
  | ld (dr : Reg) (off9 : BitVec 9)
  /-- ST, PC-relative store; R111. -/
  | st (sr : Reg) (off9 : BitVec 9)
  /-- JSR (bit 11 = 1); R123. -/
  | jsr (off11 : BitVec 11)
  /-- JSRR (bit 11 = 0); R124. -/
  | jsrr (base : Reg)
  /-- AND, register form (bit 5 = 0); R102. -/
  | andReg (dr sr1 sr2 : Reg)
  /-- AND, immediate form (bit 5 = 1); R103. -/
  | andImm (dr sr1 : Reg) (imm5 : BitVec 5)
  /-- LDR, base plus offset load; R112. -/
  | ldr (dr base : Reg) (off6 : BitVec 6)
  /-- STR, base plus offset store; R113. -/
  | str (sr base : Reg) (off6 : BitVec 6)
  /-- Opcode 1000: every such word ir raises the decode error; R131. -/
  | undefined1000 (ir : Word)
  /-- NOT; R104. -/
  | not (dr sr : Reg)
  /-- LDI, indirect load; R114. -/
  | ldi (dr : Reg) (off9 : BitVec 9)
  /-- STI, indirect store; R115. -/
  | sti (sr : Reg) (off9 : BitVec 9)
  /-- JMP, and RET when base is 7 (R122); R121. -/
  | jmp (base : Reg)
  /-- Opcode 1101: every such word ir raises the decode error; R132. -/
  | undefined1101 (ir : Word)
  /-- LEA; R116. -/
  | lea (dr : Reg) (off9 : BitVec 9)
  /-- TRAP: no field is read (R71); R130. -/
  | trap
  deriving DecidableEq, Repr

end Sys2Proof
end

