-- ==== Sys2Proof/WellFormed.lean ====
section
/-! DEFINITION. Which terms of Instr stand for a word. An operand has the type of its field, so only the two
undefined rows can be ill-formed: the word each carries must have that row's opcode (30_encoding.md R72). -/

namespace Sys2Proof

/-- The term is one the decoder can give. -/
def Instr.wellFormed : Instr → Bool
  | .undefined1000 ir => ir.extractLsb' 12 4 == 0b1000#4
  | .undefined1101 ir => ir.extractLsb' 12 4 == 0b1101#4
  | .br _ _ _ _ | .addReg _ _ _ | .addImm _ _ _ | .ld _ _ | .st _ _ | .jsr _ | .jsrr _ | .andReg _ _ _
  | .andImm _ _ _ | .ldr _ _ _ | .str _ _ _ | .not _ _ | .ldi _ _ | .sti _ _ | .jmp _ | .lea _ _ | .trap => true

end Sys2Proof
end

