-- ==== Sys2Proof/Decode.lean ====
section
/-! DEFINITION. The decoder, total on every 16-bit word (30_encoding.md R74), the encoder, and the opcode table as
masks and patterns. Decoding is a pure function of the word (R77). Bit 15 is the most significant (00_scope.md R6). -/

namespace Sys2Proof

/-- Bits [11:9]: DR, or SR of a store (R62). -/
def fieldDR (w : Word) : Reg := w.extractLsb' 9 3

/-- Bits [8:6]: SR1, SR of NOT, or BaseR (R62). -/
def fieldBase (w : Word) : Reg := w.extractLsb' 6 3

/-- Bits [2:0]: SR2 (R62). -/
def fieldSR2 (w : Word) : Reg := w.extractLsb' 0 3

/-- Bits [4:0]: imm5 (R64). -/
def fieldImm5 (w : Word) : BitVec 5 := w.extractLsb' 0 5

/-- Bits [5:0]: offset6 (R65). -/
def fieldOff6 (w : Word) : BitVec 6 := w.extractLsb' 0 6

/-- Bits [8:0]: PCoffset9 (R66). -/
def fieldOff9 (w : Word) : BitVec 9 := w.extractLsb' 0 9

/-- Bits [10:0]: PCoffset11 (R67). -/
def fieldOff11 (w : Word) : BitVec 11 := w.extractLsb' 0 11

/-- Dispatch on bits [15:12], then on bit 5 for ADD and AND and on bit 11 for opcode 0100 (R61, R68, R70;
40_step_and_dispatch.md R92). The four Booleans of a pattern are bits 15, 14, 13, 12. -/
def decode (w : Word) : Instr :=
  match w.getLsbD 15, w.getLsbD 14, w.getLsbD 13, w.getLsbD 12 with
  | false, false, false, false => .br (w.getLsbD 11) (w.getLsbD 10) (w.getLsbD 9) (fieldOff9 w)
  | false, false, false, true  =>
    if w.getLsbD 5 then .addImm (fieldDR w) (fieldBase w) (fieldImm5 w)
    else .addReg (fieldDR w) (fieldBase w) (fieldSR2 w)
  | false, false, true,  false => .ld (fieldDR w) (fieldOff9 w)
  | false, false, true,  true  => .st (fieldDR w) (fieldOff9 w)
  | false, true,  false, false => if w.getLsbD 11 then .jsr (fieldOff11 w) else .jsrr (fieldBase w)
  | false, true,  false, true  =>
    if w.getLsbD 5 then .andImm (fieldDR w) (fieldBase w) (fieldImm5 w)
    else .andReg (fieldDR w) (fieldBase w) (fieldSR2 w)
  | false, true,  true,  false => .ldr (fieldDR w) (fieldBase w) (fieldOff6 w)
  | false, true,  true,  true  => .str (fieldDR w) (fieldBase w) (fieldOff6 w)
  | true,  false, false, false => .undefined1000 w
  | true,  false, false, true  => .not (fieldDR w) (fieldBase w)
  | true,  false, true,  false => .ldi (fieldDR w) (fieldOff9 w)
  | true,  false, true,  true  => .sti (fieldDR w) (fieldOff9 w)
  | true,  true,  false, false => .jmp (fieldBase w)
  | true,  true,  false, true  => .undefined1101 w
  | true,  true,  true,  false => .lea (fieldDR w) (fieldOff9 w)
  | true,  true,  true,  true  => .trap

/-- The word that holds the low nbits bits of w, every higher bit zero. -/
def tableWord (nbits w : Nat) : Word := BitVec.ofNat 16 (w % 2 ^ nbits)

/-- The instruction the decoder reads from a table word. Every instruction is one 16-bit word (R60), so a longer
one is none. -/
def decodeTableWord (nbits w : Nat) : Option Instr :=
  if nbits ≤ 16 then some (decode (tableWord nbits w)) else none

/-- One bit of a word. -/
def bit (b : Bool) : BitVec 1 := BitVec.ofBool b

/-- The word of an instruction, field by field from the most significant bit, as the bit strings of R63 give it.
Unread bits hold the spec's conventional values (R73, R80): zeros in ADD, AND, JSRR and JMP, ones in NOT, 0x025 in
TRAP. An undefined row is its own word. -/
def encode : Instr → Word
  | .br n z p off9       => 0b0000#4 ++ bit n ++ bit z ++ bit p ++ off9
  | .addReg dr sr1 sr2   => 0b0001#4 ++ dr ++ sr1 ++ 0b0#1 ++ 0b00#2 ++ sr2
  | .addImm dr sr1 imm5  => 0b0001#4 ++ dr ++ sr1 ++ 0b1#1 ++ imm5
  | .ld dr off9          => 0b0010#4 ++ dr ++ off9
  | .st sr off9          => 0b0011#4 ++ sr ++ off9
  | .jsr off11           => 0b0100#4 ++ 0b1#1 ++ off11
  | .jsrr base           => 0b0100#4 ++ 0b0#1 ++ 0b00#2 ++ base ++ 0b000000#6
  | .andReg dr sr1 sr2   => 0b0101#4 ++ dr ++ sr1 ++ 0b0#1 ++ 0b00#2 ++ sr2
  | .andImm dr sr1 imm5  => 0b0101#4 ++ dr ++ sr1 ++ 0b1#1 ++ imm5
  | .ldr dr base off6    => 0b0110#4 ++ dr ++ base ++ off6
  | .str sr base off6    => 0b0111#4 ++ sr ++ base ++ off6
  | .undefined1000 ir    => ir
  | .not dr sr           => 0b1001#4 ++ dr ++ sr ++ 0b111111#6
  | .ldi dr off9         => 0b1010#4 ++ dr ++ off9
  | .sti sr off9         => 0b1011#4 ++ sr ++ off9
  | .jmp base            => 0b1100#4 ++ 0b000#3 ++ base ++ 0b000000#6
  | .undefined1101 ir    => ir
  | .lea dr off9         => 0b1110#4 ++ dr ++ off9
  | .trap                => 0b1111#4 ++ 0x025#12

/-- One row of the opcode table: its mnemonic and format there, and the word's bits that select it. -/
structure Row where
  mnemonic : String
  format   : String
  mask     : Word
  pattern  : Word
  deriving DecidableEq, Repr

/-- The opcode table's row of an instruction (spec/opcode_table.json; R70). -/
def Instr.row : Instr → Row
  | .br _ _ _ _       => ⟨"BR", "BR", 0xF000, 0x0000⟩
  | .addReg _ _ _     => ⟨"ADD", "OPR", 0xF020, 0x1000⟩
  | .addImm _ _ _     => ⟨"ADD", "OPI", 0xF020, 0x1020⟩
  | .ld _ _           => ⟨"LD", "PCR", 0xF000, 0x2000⟩
  | .st _ _           => ⟨"ST", "PCR", 0xF000, 0x3000⟩
  | .jsr _            => ⟨"JSR", "JSR", 0xF800, 0x4800⟩
  | .jsrr _           => ⟨"JSRR", "JSRR", 0xF800, 0x4000⟩
  | .andReg _ _ _     => ⟨"AND", "OPR", 0xF020, 0x5000⟩
  | .andImm _ _ _     => ⟨"AND", "OPI", 0xF020, 0x5020⟩
  | .ldr _ _ _        => ⟨"LDR", "BASE", 0xF000, 0x6000⟩
  | .str _ _ _        => ⟨"STR", "BASE", 0xF000, 0x7000⟩
  | .undefined1000 _  => ⟨"undefined_1000", "UNDEF", 0xF000, 0x8000⟩
  | .not _ _          => ⟨"NOT", "NOT", 0xF000, 0x9000⟩
  | .ldi _ _          => ⟨"LDI", "PCR", 0xF000, 0xA000⟩
  | .sti _ _          => ⟨"STI", "PCR", 0xF000, 0xB000⟩
  | .jmp _            => ⟨"JMP", "JMP", 0xF000, 0xC000⟩
  | .undefined1101 _  => ⟨"undefined_1101", "UNDEF", 0xF000, 0xD000⟩
  | .lea _ _          => ⟨"LEA", "PCR", 0xF000, 0xE000⟩
  | .trap             => ⟨"TRAP", "TRAP", 0xF000, 0xF000⟩

/-- The nineteen rows, in the table's order. -/
def opcodeTable : List Row :=
  [Instr.row (.br false false false 0), Instr.row (.addReg 0 0 0), Instr.row (.addImm 0 0 0), Instr.row (.ld 0 0),
    Instr.row (.st 0 0), Instr.row (.jsr 0), Instr.row (.jsrr 0), Instr.row (.andReg 0 0 0)] ++
  [Instr.row (.andImm 0 0 0), Instr.row (.ldr 0 0 0), Instr.row (.str 0 0 0), Instr.row (.undefined1000 0),
    Instr.row (.not 0 0), Instr.row (.ldi 0 0), Instr.row (.sti 0 0), Instr.row (.jmp 0)] ++
  [Instr.row (.undefined1101 0), Instr.row (.lea 0 0), Instr.row .trap]

/-- The bits of a word the instruction does not read (R73). Of the undefined rows none is dropped: fault_ir
records the whole word (R141). -/
def Instr.unreadBits : Instr → Word
  | .addReg _ _ _ | .andReg _ _ _ => 0x0018
  | .not _ _ => 0x003F
  | .jsrr _ => 0x063F
  | .jmp _ => 0x0E3F
  | .trap => 0x0FFF
  | .br _ _ _ _ | .addImm _ _ _ | .ld _ _ | .st _ _ | .jsr _ | .andImm _ _ _ | .ldr _ _ _ | .str _ _ _
  | .undefined1000 _ | .ldi _ _ | .sti _ _ | .undefined1101 _ | .lea _ _ => 0x0000

end Sys2Proof
end

