-- ==== Sys2Proof/Config.lean ====
section
/-! DEFINITION. The parameters of the hardware that are values (00_scope.md R5), and the one value of the reset
state the spec leaves to the image. There is no free value: no rule of the spec leaves a value open
(93_implementation_defined.md, part 1). -/

namespace Sys2Proof

/-- DEFAULT, the sentinel: what every register holds at the start of a run and what a memory cell reads as that
neither the image nor a store has written (R5, R34, R42). UNVERIFIED beyond the spec's own word, see entry 9. -/
def Config.defaultWord : Word := 0x7777

/-- The start address of State.reset. DESIGN CHOICE (entry 2, unsafe): the spec takes pc from the image (R33), and
State.reset has no image. No statement rests on this value. -/
def Config.resetStart : Word := 0x0000

/-- fault_pc and fault_ir while fault_cause is none. DESIGN CHOICE (entry 3, unsafe): R33 calls them not
meaningful. No statement rests on this value. -/
def Config.noFaultWord : Word := 0x0000

end Sys2Proof
end

