-- ==== Sys2Proof/Machine/State.lean ====
section
/-! DEFINITION. The whole state of the block as plain data (10_state.md; R32: there is nothing else), the reasons
the model can stop, and the state right after reset. -/

namespace Sys2Proof.Machine

/-- The condition flag: exactly one of Negative, Zero, Positive (R26). The hardware fixes no bit encoding (entry 12). -/
inductive CC where
  | n | z | p
  deriving DecidableEq, Repr

/-- The run state (R29). -/
inductive RunState where
  | running | halted | faulted
  deriving DecidableEq, Repr

/-- The cause in the fault record: no numeric code (R30, R142). -/
inductive FaultCause where
  | none | decodeError
  deriving DecidableEq, Repr

/-- The 65536 cells of 16 bits (R31) as (address, cell) pairs: addresses strictly rising, no listed cell equal to
the default an unlisted address reads as (R42, R55; entry 1). The hardware has no bytes (R45). -/
abbrev Memory := List (Nat × Word)

structure State where
  /-- x[0] to x[7] (R20). -/
  regs : Vector Word 8
  /-- The address of the next instruction to fetch (R23). -/
  pc : Word
  /-- The condition flag (R26). -/
  cc : CC
  /-- The run state (R29). -/
  run : RunState
  /-- The fault record's cause (R30). -/
  faultCause : FaultCause
  /-- The fault record's address (R30); not meaningful while the cause is none. -/
  faultPc : Word
  /-- The fault record's word (R30); not meaningful while the cause is none. -/
  faultIr : Word
  /-- The memory (R31). -/
  mem : Memory
  deriving DecidableEq, Repr

/-- Why the model stops with a fault. No instruction and no step raises one: the hardware's one exception, the
decode error, is a state of the machine (R141), and nothing else can fault (R143). -/
inductive Fault where
  /-- Raised by launch alone, when the host asks to load and start while run = Running, which the spec says it
  cannot do (R165, R166, R171). Safe: the model stops on a move the hardware does not offer (entry 13). -/
  | launchWhileRunning
  deriving DecidableEq, Repr

/-- Why the model refuses. -/
inductive Refusal where
  /-- Raised by exec alone, for an instruction that has no meaning yet; no arm raises it now. Safe: the model stops. -/
  | notModelled (mnemonic : String)
  deriving DecidableEq, Repr

/-- The outcome of a step or of a meaning. -/
abbrev Result := Host.Outcome State Fault Refusal

/-- The machine right after reset, with no image loaded: R33 and R160 with no words. The start address, which the
spec takes from the image, and fault_pc and fault_ir, which R33 calls not meaningful, are DESIGN CHOICE
(entries 2 and 3). -/
def State.reset : State where
  regs := Vector.replicate 8 Config.defaultWord
  pc := Config.resetStart
  cc := .z
  run := .running
  faultCause := .none
  faultPc := Config.noFaultWord
  faultIr := Config.noFaultWord
  mem := []

end Sys2Proof.Machine
end

