-- ==== Sys2Proof/Machine/Ops.lean ====
section
/-! DEFINITION. The named operations over memory, registers, the program counter and the run state: every read and
write of a meaning goes through them. -/

namespace Sys2Proof.Machine

/-! ### Memory (20_memory.md) -/

/-- The one canonical form: addresses of the space, strictly rising, and no listed cell holds the default. -/
abbrev Memory.wf (m : Memory) : Prop :=
  m.Pairwise (fun c d => c.1 < d.1) ∧ ∀ c ∈ m, c.1 < 65536 ∧ c.2 ≠ Config.defaultWord

/-- The cell at an address; an unlisted address reads as the default (R42). -/
def Memory.read : Memory → Word → Word
  | [], _ => Config.defaultWord
  | (k, v) :: m, a => if k = a.toNat then v else Memory.read m a

/-- The list without the address. -/
def Memory.unlist (m : Memory) (a : Word) : Memory := m.filter fun c => c.1 ≠ a.toNat

/-- List the address, which is not listed yet, at its place. -/
def Memory.place (a v : Word) : Memory → Memory
  | [] => [(a.toNat, v)]
  | (k, w) :: m => if a.toNat < k then (a.toNat, v) :: (k, w) :: m else (k, w) :: Memory.place a v m

/-- Store a cell (R43); a cell that holds the default is not listed. -/
def Memory.write (m : Memory) (a v : Word) : Memory :=
  if v = Config.defaultWord then m.unlist a else Memory.place a v (m.unlist a)

/-- Store words at consecutive addresses, in order; the address wraps and a later word overwrites an earlier one
(70_reset_and_hazards.md R162). -/
def Memory.writeAll : Memory → Word → List Word → Memory
  | m, _, [] => m
  | m, a, w :: ws => Memory.writeAll (m.write a w) (a + 1) ws

/-- MemRead(a, 1) (R42). -/
def State.memRead (s : State) (a : Word) : Word := s.mem.read a

/-- MemWrite(a, 1, v) (R43). -/
def State.memWrite (s : State) (a v : Word) : State := { s with mem := s.mem.write a v }

/-! ### Registers (10_state.md) -/

/-- x[r] (R20, R34): an ordinary read, no register is hard-wired. -/
def State.readReg (s : State) (r : Reg) : Word := s.regs[r.toNat]'r.isLt

/-- x[r] <- v (R20). -/
def State.writeReg (s : State) (r : Reg) (v : Word) : State := { s with regs := s.regs.set r.toNat v r.isLt }

/-- The link register of JSR and JSRR (R21). -/
def linkReg : Reg := 7

/-! ### Program counter (R23 to R25) -/

/-- pc1 = pc + 1, modulo 2^16 (R23, R25). -/
def State.pcNext (s : State) : Word := s.pc + 1

/-- pc <- t: every value is a legal pc (R25). -/
def State.jumpTo (s : State) (t : Word) : State := { s with pc := t }

/-- pc <- pc + 1. -/
def State.advance (s : State) : State := s.jumpTo s.pcNext

/-- The fetch: ir = MemRead(pc, 1); it changes nothing (40_step_and_dispatch.md R91). -/
def State.fetch (s : State) : Word := s.memRead s.pc

/-! ### Ending a run -/

/-- halt: run <- Halted and nothing else (44_trap_and_reserved.md R130). -/
def State.halt (s : State) : State := { s with run := .halted }

/-- raise DecodeError(pc, ir): taking the hardware's one exception (60_exceptions.md R141). It writes the fault
record and the run state and nothing else: pc stays, nothing is saved or pushed, no handler is entered. There is
no return from it to write beside it: no instruction leaves Faulted or Halted (R148), only a new launch does
(Machine/HostPort.lean). -/
def State.raiseDecodeError (s : State) (ir : Word) : State :=
  { s with faultCause := .decodeError, faultPc := s.pc, faultIr := ir, run := .faulted }

/-- Place a word where the next fetch reads, and let the block run: what the next step needs to run that word
(entry 4). -/
def State.placeFetchWord (s : State) (w : Word) : State := { s.memWrite s.pc w with run := .running }

end Sys2Proof.Machine
end

