-- ==== Sys2Proof/Machine/Operands.lean ====
section
/-! DEFINITION. The operand forms: sign-extended fields (00_scope.md R7; 30_encoding.md R64 to R67) and the three
addressing modes (42_load_store.md). Every sum is modulo 2^16 (R9, 20_memory.md R44). -/

namespace Sys2Proof.Machine

/-- sext_N: the field's top bit fills every higher bit (R7); N is 5, 6, 9 or 11. -/
def sext {N : Nat} (f : BitVec N) : Word := f.signExtend 16

/-- pc + 1 + sext(offset): the PC-relative address of LD, ST, LDI, STI and LEA and the target of BR (nine bits, R66)
and of JSR (eleven bits, R67). -/
def State.pcRelative {N : Nat} (s : State) (off : BitVec N) : Word := s.pcNext + sext off

/-- x[BaseR] + sext_6(offset6): the address of LDR and STR (R65, R112). -/
def State.baseOffset (s : State) (base : Reg) (off6 : BitVec 6) : Word := s.readReg base + sext off6

/-- The pointer LDI and STI read at their PC-relative address (R114, R115). -/
def State.pointer (s : State) (off9 : BitVec 9) : Word := s.memRead (s.pcRelative off9)

end Sys2Proof.Machine
end

