-- ==== Sys2Proof/Machine/Flags.lean ====
section
/-! DEFINITION. The condition flag: how a result sets it (10_state.md R27), how BR reads it (30_encoding.md R69),
and the shared ending of the instructions that set it (R28). -/

namespace Sys2Proof.Machine

/-- The flag of a value: N if bit 15 is set, Z if it is zero, P otherwise (R27). -/
def ccOf (v : Word) : CC := if v.getLsbD 15 then .n else if v = 0 then .z else .p

/-- SetCC(v) (R27). -/
def State.setCC (s : State) (v : Word) : State := { s with cc := ccOf v }

/-- (n and N) or (z and Z) or (p and P) (R69, R120). -/
def branchTaken (n z p : Bool) : CC → Bool
  | .n => n
  | .z => z
  | .p => p

/-- pc <- pc + 1; x[DR] <- v; SetCC(v): how ADD, AND, NOT, LD, LDR and LDI end (41_operate.md R106, 42_load_store.md
R117). -/
def State.writeResult (s : State) (dr : Reg) (v : Word) : State := (s.advance.writeReg dr v).setCC v

/-- pc <- pc + 1; MemWrite(a, 1, v): how ST, STR and STI end (R117). -/
def State.storeResult (s : State) (a v : Word) : State := s.advance.memWrite a v

/-- x[7] <- pc + 1 and pc <- target: how JSR and JSRR end, with the target already read (43_control.md R123, R124). -/
def State.call (s : State) (target : Word) : State := (s.jumpTo target).writeReg linkReg s.pcNext

end Sys2Proof.Machine
end

