-- ==== Sys2Proof/Machine/Control.lean ====
section
/-! DEFINITION. BR, JMP, JSR and JSRR (43_control.md). No delay slot, no change of cc or memory (R125). -/

namespace Sys2Proof.Machine

/-- R120: pc <- pc + 1 + sext_9(off9) if the branch is taken, else pc + 1. -/
def execBr (n z p : Bool) (off9 : BitVec 9) (s : State) : Result :=
  .next (if branchTaken n z p s.cc then s.jumpTo (s.pcRelative off9) else s.advance)

/-- R121: pc <- x[BaseR], with no increment anywhere; RET is BaseR = 7 (R122). -/
def execJmp (base : Reg) (s : State) : Result := .next (s.jumpTo (s.readReg base))

/-- R123: pc <- pc + 1 + sext_11(off11), and x[7] <- pc + 1. -/
def execJsr (off11 : BitVec 11) (s : State) : Result := .next (s.call (s.pcRelative off11))

/-- R124: pc <- x[BaseR], read before x[7] <- pc + 1. -/
def execJsrr (base : Reg) (s : State) : Result := .next (s.call (s.readReg base))

end Sys2Proof.Machine
end

