-- ==== Sys2Proof/Machine/LoadStore.lean ====
section
/-! DEFINITION. LD, ST, LDR, STR, LDI, STI and LEA (42_load_store.md). The order of the accesses is 20_memory.md
R41 and R51. -/

namespace Sys2Proof.Machine

/-- R110: x[DR] <- mem[pc + 1 + sext_9(off9)]. -/
def execLd (dr : Reg) (off9 : BitVec 9) (s : State) : Result := .next (s.writeResult dr (s.memRead (s.pcRelative off9)))

/-- R111: mem[pc + 1 + sext_9(off9)] <- x[SR]. -/
def execSt (sr : Reg) (off9 : BitVec 9) (s : State) : Result :=
  .next (s.storeResult (s.pcRelative off9) (s.readReg sr))

/-- R112: x[DR] <- mem[x[BaseR] + sext_6(off6)]. -/
def execLdr (dr base : Reg) (off6 : BitVec 6) (s : State) : Result :=
  .next (s.writeResult dr (s.memRead (s.baseOffset base off6)))

/-- R113: mem[x[BaseR] + sext_6(off6)] <- x[SR]. -/
def execStr (sr base : Reg) (off6 : BitVec 6) (s : State) : Result :=
  .next (s.storeResult (s.baseOffset base off6) (s.readReg sr))

/-- R114: x[DR] <- mem[mem[pc + 1 + sext_9(off9)]]. -/
def execLdi (dr : Reg) (off9 : BitVec 9) (s : State) : Result := .next (s.writeResult dr (s.memRead (s.pointer off9)))

/-- R115: mem[mem[pc + 1 + sext_9(off9)]] <- x[SR]. -/
def execSti (sr : Reg) (off9 : BitVec 9) (s : State) : Result := .next (s.storeResult (s.pointer off9) (s.readReg sr))

/-- R116: x[DR] <- pc + 1 + sext_9(off9); cc is not changed and memory is not accessed. -/
def execLea (dr : Reg) (off9 : BitVec 9) (s : State) : Result := .next (s.advance.writeReg dr (s.pcRelative off9))

end Sys2Proof.Machine
end

