-- ==== Sys2Proof/Machine/Operate.lean ====
section
/-! DEFINITION. ADD, AND and NOT (41_operate.md). Sources are read before the write (R22, R106). -/

namespace Sys2Proof.Machine

/-- R100: x[DR] <- x[SR1] + x[SR2]. -/
def execAddReg (dr sr1 sr2 : Reg) (s : State) : Result := .next (s.writeResult dr (s.readReg sr1 + s.readReg sr2))

/-- R101: x[DR] <- x[SR1] + sext_5(imm5). -/
def execAddImm (dr sr1 : Reg) (imm5 : BitVec 5) (s : State) : Result :=
  .next (s.writeResult dr (s.readReg sr1 + sext imm5))

/-- R102: x[DR] <- x[SR1] & x[SR2]. -/
def execAndReg (dr sr1 sr2 : Reg) (s : State) : Result := .next (s.writeResult dr (s.readReg sr1 &&& s.readReg sr2))

/-- R103: x[DR] <- x[SR1] & sext_5(imm5). -/
def execAndImm (dr sr1 : Reg) (imm5 : BitVec 5) (s : State) : Result :=
  .next (s.writeResult dr (s.readReg sr1 &&& sext imm5))

/-- R104: x[DR] <- ~x[SR]. -/
def execNot (dr sr : Reg) (s : State) : Result := .next (s.writeResult dr (~~~ s.readReg sr))

end Sys2Proof.Machine
end

