-- ==== Sys2Proof/Machine/Trap.lean ====
section
/-! DEFINITION. TRAP and the two undefined opcodes (44_trap_and_reserved.md): the only words that end a run. -/

namespace Sys2Proof.Machine

/-- R130: run <- Halted, for every vector; pc is not advanced and x[7] is not written. -/
def execTrap (s : State) : Result := .next s.halt

/-- R131: raise DecodeError(pc, ir). -/
def execUndefined1000 (ir : Word) (s : State) : Result := .next (s.raiseDecodeError ir)

/-- R132: raise DecodeError(pc, ir). -/
def execUndefined1101 (ir : Word) (s : State) : Result := .next (s.raiseDecodeError ir)

end Sys2Proof.Machine
end

