-- ==== Sys2Proof/Machine/Cycle.lean ====
section
/-! DEFINITION. One cycle of the block: fetch, decode, execute (40_step_and_dispatch.md R90 to R93) while it runs,
and nothing once it has stopped (R98). -/

namespace Sys2Proof.Machine

/-- Fetch, decode, execute. -/
def runInstruction (s : State) : Result := exec (decode s.fetch) s

/-- What the block does in its run state. Halted and Faulted take no step: no fetch, no decode, no state change
(R98). DESIGN CHOICE (entry 5): the step function answers that unchanged state. -/
def cycle (s : State) : Result :=
  match s.run with
  | .running => runInstruction s
  | .halted => .next s
  | .faulted => .next s

end Sys2Proof.Machine
end

