-- ==== Sys2Proof/Machine/Step.lean ====
section
/-! DEFINITION. The step function, and the state in which the next step runs a given word. -/

namespace Sys2Proof.Machine

/-- One step of the block (40_step_and_dispatch.md R90). -/
def step (s : State) : Host.Outcome State Fault Refusal := cycle s

/-- The state with the word stored where step fetches its next instruction, and running (entry 4). -/
def State.withFetchWord (s : State) (nbits w : Nat) : State := s.placeFetchWord (tableWord nbits w)

end Sys2Proof.Machine
end

