-- ==== Sys2Proof/Machine/HostPort.lean ====
section
/-! DEFINITION. The block's outward interface (70_reset_and_hazards.md R160 to R171): load and start, and the three
read-outs. These are transactions of the host, not instructions; none is possible while the block runs but the
run-state read-out (R166, R171). -/

namespace Sys2Proof.Machine

/-- The image: a start address, which is the load address of the first word and the initial pc, and a finite list
of words (R161, R163). -/
structure Image where
  start : Word
  words : List Word
  deriving DecidableEq, Repr

/-- The indivisible initialisation that begins a run (R160, R33): clear every cell, place the words at consecutive
addresses from the start address (R162), and give every other piece of state its start value. -/
def State.ofImage (img : Image) : State where
  regs := Vector.replicate 8 Config.defaultWord
  pc := img.start
  cc := .z
  run := .running
  faultCause := .none
  faultPc := Config.noFaultWord
  faultIr := Config.noFaultWord
  mem := Memory.writeAll [] img.start img.words

/-- Load and start: allowed when run is not Running (R165, R171); it keeps nothing of the earlier run. While the
block runs the host has no move (R166), so the model stops by name (entry 13). -/
def launch (img : Image) (s : State) : Result :=
  match s.run with
  | .running => .fault .launchWhileRunning
  | .halted => .next (State.ofImage img)
  | .faulted => .next (State.ofImage img)

/-- The run state, presented always (R171). -/
def runReadOut (s : State) : RunState := s.run

/-- The eight registers, presented at Halted and at no other time (R167, R168). -/
def registerReadOut (s : State) : Option (Vector Word 8) :=
  match s.run with
  | .running => none
  | .halted => some s.regs
  | .faulted => none

/-- The fault record, presented at Faulted and at no other time (R168, R171). -/
def faultReadOut (s : State) : Option (FaultCause × Word × Word) :=
  match s.run with
  | .running => none
  | .halted => none
  | .faulted => some (s.faultCause, s.faultPc, s.faultIr)

end Sys2Proof.Machine
end

