-- ==== Sys2Proof/Safety.lean ====
section
/-! DEFINITION. What counts as a safe state, and the words claims are stated in: which registers,
cells and control state a step leaves alone, what the flag says of a value, and what each instruction reads and
writes. These are written from the spec's tables, not from the meanings. -/

namespace Sys2Proof.Safety

open Sys2Proof.Machine

/-- Bits [15:12] of a word (30_encoding.md R61). -/
def opcodeOf (w : Word) : BitVec 4 := w.extractLsb' 12 4

/-- The two opcodes with no instruction (R72). -/
def undefinedOpcode (w : Word) : Prop := opcodeOf w = 0b1000#4 ∨ opcodeOf w = 0b1101#4

/-- The invariant of a machine state: memory is in its canonical form (the model's own, entry 1); while the block
runs no fault is recorded; at Halted no fault is recorded and pc stands at a TRAP word (40_step_and_dispatch.md R94,
R96; 44_trap_and_reserved.md R130, where pc is the spec's own decision D5, entry 8); at Faulted the record holds the
decode error, and pc and the cell at pc are the recorded address and word, whose opcode is undefined (10_state.md R30,
60_exceptions.md R141, the spec's own decisions D3 and D4, entry 6). -/
structure Inv (s : State) : Prop where
  canonical : Memory.wf s.mem
  running : s.run = .running → s.faultCause = .none
  halted : s.run = .halted → s.faultCause = .none ∧ opcodeOf (s.memRead s.pc) = 0b1111#4
  faulted : s.run = .faulted → s.faultCause = .decodeError ∧ s.faultPc = s.pc ∧
    s.faultIr = s.memRead s.pc ∧ undefinedOpcode s.faultIr

/-- The state k steps after s, if no step stops the model. -/
abbrev Reaches (k : Nat) (s t : State) : Prop := Host.Core.run Sys2Proof.core k s = .next t

/-- Every register but the listed ones is unchanged. -/
def regsKept (s t : State) (written : List Reg) : Prop := ∀ r, r ∉ written → t.readReg r = s.readReg r

/-- Every cell is unchanged. -/
def memKept (s t : State) : Prop := ∀ a, t.memRead a = s.memRead a

/-- Every cell but one is unchanged. -/
def memKeptBut (s t : State) (a : Word) : Prop := ∀ b, b ≠ a → t.memRead b = s.memRead b

/-- The fault record is unchanged. -/
def recordKept (s t : State) : Prop :=
  t.faultCause = s.faultCause ∧ t.faultPc = s.faultPc ∧ t.faultIr = s.faultIr

/-- The run state and the fault record are unchanged. -/
def controlKept (s t : State) : Prop := t.run = s.run ∧ recordKept s t

/-- The flag says the sign of a value read as two's complement (R8, R27). -/
def flagSays (c : CC) (v : Word) : Prop :=
  (c = .n ∧ v.toInt < 0) ∨ (c = .z ∧ v.toInt = 0) ∨ (c = .p ∧ 0 < v.toInt)

/-- The 16-bit pattern of an integer: the sum of the integers, modulo 2^16 (R9). -/
abbrev wrap (i : Int) : Word := BitVec.ofInt 16 i

/-- The register an instruction writes (10_state.md R21, right column). -/
def regWritten : Instr → Option Reg
  | .addReg dr _ _ | .addImm dr _ _ | .andReg dr _ _ | .andImm dr _ _ | .not dr _ => some dr
  | .ld dr _ | .ldi dr _ | .ldr dr _ _ | .lea dr _ => some dr
  | .jsr _ | .jsrr _ => some 7
  | .br _ _ _ _ | .st _ _ | .sti _ _ | .str _ _ _ | .jmp _ | .trap | .undefined1000 _ | .undefined1101 _ => none

/-- The registers an instruction reads (10_state.md R21, left column). -/
def regsRead : Instr → List Reg
  | .addReg _ sr1 sr2 | .andReg _ sr1 sr2 => [sr1, sr2]
  | .addImm _ sr1 _ | .andImm _ sr1 _ => [sr1]
  | .not _ sr => [sr]
  | .ldr _ base _ => [base]
  | .st sr _ | .sti sr _ => [sr]
  | .str sr base _ => [sr, base]
  | .jmp base | .jsrr base => [base]
  | .br _ _ _ _ | .ld _ _ | .ldi _ _ | .lea _ _ | .jsr _ | .trap | .undefined1000 _ | .undefined1101 _ => []

/-- The register whose new value sets the flag (10_state.md R28). -/
def setsFlagFrom : Instr → Option Reg
  | .addReg dr _ _ | .addImm dr _ _ | .andReg dr _ _ | .andImm dr _ _ | .not dr _ => some dr
  | .ld dr _ | .ldr dr _ _ | .ldi dr _ => some dr
  | .lea _ _ | .st _ _ | .str _ _ _ | .sti _ _ | .br _ _ _ _ | .jmp _ | .jsr _ | .jsrr _ | .trap
  | .undefined1000 _ | .undefined1101 _ => none

/-- The cell an instruction stores to (20_memory.md R41), by the meanings' own address computations. -/
def cellWritten : Instr → State → Option Word
  | .st _ off9, s => some (s.pcRelative off9)
  | .str _ base off6, s => some (s.baseOffset base off6)
  | .sti _ off9, s => some (s.pointer off9)
  | .br _ _ _ _, _ | .addReg _ _ _, _ | .addImm _ _ _, _ | .ld _ _, _ | .jsr _, _ | .jsrr _, _ | .andReg _ _ _, _
  | .andImm _ _ _, _ | .ldr _ _ _, _ | .undefined1000 _, _ | .not _ _, _ | .ldi _ _, _ | .jmp _, _
  | .undefined1101 _, _ | .lea _ _, _ | .trap, _ => none

/-- The pc after a step (10_state.md R24, row by row). -/
def pcAfter : Instr → State → Word
  | .addReg _ _ _, s | .addImm _ _ _, s | .andReg _ _ _, s | .andImm _ _ _, s | .not _ _, s | .ld _ _, s | .st _ _, s
  | .ldr _ _ _, s | .str _ _ _, s | .ldi _ _, s | .sti _ _, s | .lea _ _, s => wrap (s.pc.toNat + 1)
  | .br n z p off9, s =>
    if (n ∧ s.cc = .n) ∨ (z ∧ s.cc = .z) ∨ (p ∧ s.cc = .p) then wrap (s.pc.toNat + 1 + off9.toInt)
    else wrap (s.pc.toNat + 1)
  | .jsr off11, s => wrap (s.pc.toNat + 1 + off11.toInt)
  | .jsrr base, s | .jmp base, s => s.readReg base
  | .trap, s | .undefined1000 _, s | .undefined1101 _, s => s.pc

end Sys2Proof.Safety
end

