-- ==== Sys2Proof/Certificates/Slice0/Obligations.lean ====
section
/-! DEFINITION. The statements for the provers. Words are written bit by bit from the spec's encodings; results are
stated over the integers and then wrapped (00_scope.md R9), not through the meanings' own operations. The
vocabulary (regsKept, memKept, controlKept, flagSays, wrap and the tables of who reads and writes what) stands in
Sys2Proof/Safety.lean. -/

open Sys2Proof Sys2Proof.Machine Sys2Proof.Safety

/-! ### The step, the decoder and the encoder -/

/-- 40_step_and_dispatch.md R90 to R93: while the block runs, a step fetches the word at pc, decodes it to a well-
formed instruction and executes that instruction at the unchanged state. -/
def Obligations.StepRunsTheDecodedInstruction : Prop :=
  ∀ s : State, s.run = .running →
    (decode (s.memRead s.pc)).wellFormed = true ∧ step s = exec (decode (s.memRead s.pc)) s

/-- The interface to the host (entry 4): a word placed for the next fetch is fetched and executed by the next step,
whatever the state, and nothing but the run state and the cell at pc is changed to place it. -/
def Obligations.PlacedWordIsTheNextInstruction : Prop :=
  ∀ (s : State) (w : Nat),
    step (s.withFetchWord 16 w) = exec (decode (BitVec.ofNat 16 w)) (s.withFetchWord 16 w) ∧
    decodeTableWord 16 w = some (decode (BitVec.ofNat 16 w)) ∧
    (s.withFetchWord 16 w).pc = s.pc ∧ (s.withFetchWord 16 w).cc = s.cc ∧ regsKept s (s.withFetchWord 16 w) [] ∧
    memKeptBut s (s.withFetchWord 16 w) s.pc ∧ recordKept s (s.withFetchWord 16 w)

/-- Words of 95_test_vectors.md, at least one for each family, decode as they are written there. -/
def Obligations.SampleWordsDecode : Prop :=
  decode 0x1221 = .addImm 1 0 1 ∧ decode 0x14DC = .addReg 2 3 4 ∧ decode 0x529B = .andReg 1 2 3 ∧
  decode 0x52B0 = .andImm 1 2 0b10000 ∧ decode 0x9280 = .not 1 2 ∧ decode 0x25FF = .ld 2 0x1FF ∧
  decode 0x3602 = .st 3 2 ∧ decode 0x62BF = .ldr 1 2 0b111111 ∧ decode 0x7777 = .str 3 5 0b110111 ∧
  decode 0xA801 = .ldi 4 1 ∧ decode 0xB801 = .sti 4 1 ∧ decode 0xE1FE = .lea 0 0x1FE ∧
  decode 0x0A05 = .br true false true 5 ∧ decode 0xCEBF = .jmp 2 ∧ decode 0x4C00 = .jsr 0x400 ∧
  decode 0x46BF = .jsrr 2 ∧ decode 0xF025 = .trap ∧ decode 0x8FFF = .undefined1000 0x8FFF ∧
  decode 0xDABC = .undefined1101 0xDABC

/-- Decoding an encoded instruction gives it back, for every well-formed instruction and every operand value. -/
def Obligations.DecodeEncodeAgree : Prop :=
  ∀ i : Instr, i.wellFormed = true → decode (encode i) = i

/-- Encoding what a word decodes to gives back every bit of the word that is read (30_encoding.md R73). -/
def Obligations.EncodeDecodeKeepsReadBits : Prop :=
  ∀ w : Word, encode (decode w) &&& ~~~(decode w).unreadBits = w &&& ~~~(decode w).unreadBits

/-- 30_encoding.md R83: the number of every instruction's word, from its fields. An offset or immediate is the
signed number, taken to its field by mod. The unread bits of NOT, JSRR, JMP and TRAP hold the spec's conventional
values (decision D6, entry 7). -/
def Obligations.EncodedWordsHaveTheSpecNumbers : Prop :=
  (∀ dr sr1 sr2 : Reg,
    (encode (.addReg dr sr1 sr2)).toNat = 1 * 4096 + dr.toNat * 512 + sr1.toNat * 64 + sr2.toNat ∧
    (encode (.andReg dr sr1 sr2)).toNat = 5 * 4096 + dr.toNat * 512 + sr1.toNat * 64 + sr2.toNat) ∧
  (∀ (dr sr1 : Reg) (imm5 : BitVec 5),
    ((encode (.addImm dr sr1 imm5)).toNat : Int) =
      1 * 4096 + dr.toNat * 512 + sr1.toNat * 64 + (0b100000 + imm5.toInt % 32) ∧
    ((encode (.andImm dr sr1 imm5)).toNat : Int) =
      5 * 4096 + dr.toNat * 512 + sr1.toNat * 64 + (0b100000 + imm5.toInt % 32)) ∧
  (∀ dr sr : Reg, (encode (.not dr sr)).toNat = 9 * 4096 + dr.toNat * 512 + sr.toNat * 64 + 0b111111) ∧
  (∀ (r base : Reg) (off6 : BitVec 6),
    ((encode (.ldr r base off6)).toNat : Int) =
      6 * 4096 + r.toNat * 512 + base.toNat * 64 + off6.toInt % 64 ∧
    ((encode (.str r base off6)).toNat : Int) =
      7 * 4096 + r.toNat * 512 + base.toNat * 64 + off6.toInt % 64) ∧
  (∀ base : Reg, (encode (.jsrr base)).toNat = 4 * 4096 + base.toNat * 64 ∧
    (encode (.jmp base)).toNat = 12 * 4096 + base.toNat * 64) ∧
  (∀ (r : Reg) (off9 : BitVec 9),
    ((encode (.ld r off9)).toNat : Int) = 2 * 4096 + r.toNat * 512 + off9.toInt % 512 ∧
    ((encode (.st r off9)).toNat : Int) = 3 * 4096 + r.toNat * 512 + off9.toInt % 512 ∧
    ((encode (.ldi r off9)).toNat : Int) = 10 * 4096 + r.toNat * 512 + off9.toInt % 512 ∧
    ((encode (.sti r off9)).toNat : Int) = 11 * 4096 + r.toNat * 512 + off9.toInt % 512 ∧
    ((encode (.lea r off9)).toNat : Int) = 14 * 4096 + r.toNat * 512 + off9.toInt % 512) ∧
  (∀ (n z p : Bool) (off9 : BitVec 9), ((encode (.br n z p off9)).toNat : Int) =
    0 * 4096 + (n.toNat * 4 + z.toNat * 2 + p.toNat) * 512 + off9.toInt % 512) ∧
  (∀ off11 : BitVec 11, ((encode (.jsr off11)).toNat : Int) = 0x4800 + off11.toInt % 2048) ∧
  (encode .trap).toNat = 0xF000 + 0x25

/-- 30_encoding.md R74 (derived there), R70: every word matches exactly one row of the opcode table, and the decoder
gives an instruction of that row. -/
def Obligations.EveryWordMatchesExactlyOneRow : Prop :=
  opcodeTable.length = 19 ∧ opcodeTable.Nodup ∧
  ∀ w : Word, (decode w).row ∈ opcodeTable ∧
    ∀ r ∈ opcodeTable, (w &&& r.mask = r.pattern ↔ r = (decode w).row)

/-- 30_encoding.md R73 (derived there, decision D6; entry 7): two words that differ in unread bits alone decode to
one instruction. -/
def Obligations.UnreadBitsAreIgnored : Prop :=
  ∀ w v : Word, w &&& ~~~(decode w).unreadBits = v &&& ~~~(decode w).unreadBits → decode v = decode w

/-- 00_scope.md R7, at the four widths the fields have (30_encoding.md R64 to R67). -/
def Obligations.SignExtensionIsTheTwosComplementValue : Prop :=
  ∀ N ∈ [5, 6, 9, 11], ∀ f : BitVec N,
    (sext f).toNat = if f.toNat < 2 ^ (N - 1) then f.toNat else f.toNat + 2 ^ 16 - 2 ^ N

/-! ### The tables of the state file: flag, pc, registers, memory -/

/-- 10_state.md R27: what SetCC(v) does for every v, and that the v of every instruction that sets the flag is the
new value of its destination. -/
def Obligations.SetCCFollowsTheSign : Prop :=
  (∀ (s : State) (v : Word),
    ((s.setCC v).cc = .n ↔ v.toInt < 0) ∧ ((s.setCC v).cc = .n ↔ v.getLsbD 15 = true) ∧
    ((s.setCC v).cc = .n ↔ 0x8000 ≤ v.toNat) ∧ ((s.setCC v).cc = .z ↔ v = 0x0000) ∧
    ((s.setCC v).cc = .p ↔ 0 < v.toInt) ∧ ((s.setCC v).cc = .p ↔ 0x0001 ≤ v.toNat ∧ v.toNat ≤ 0x7FFF) ∧
    (s.setCC v).pc = s.pc ∧ regsKept s (s.setCC v) [] ∧ memKept s (s.setCC v) ∧ controlKept s (s.setCC v)) ∧
  (∀ (i : Instr) (s : State) (dr : Reg), setsFlagFrom i = some dr →
    ∃ t, exec i s = .next t ∧ t.cc = (s.setCC (t.readReg dr)).cc)

/-- 10_state.md R28: who writes and who reads the flag. After an instruction that sets it, it says the sign of the
register just written; after any other it is unchanged. No instruction but BR reads it: with another flag beforehand
the outcome is the same, but for the flag itself where the instruction does not set it. It does not track the
registers: at the start of a run it is Z while every register is positive. -/
def Obligations.FlagIsWrittenAndReadWhereDocumented : Prop :=
  (∀ (i : Instr) (s : State), ∃ t, exec i s = .next t ∧
    (match setsFlagFrom i with
    | some dr => flagSays t.cc (t.readReg dr)
    | none => t.cc = s.cc) ∧
    ∀ c : CC, (∀ n z p off9, i ≠ .br n z p off9) →
      exec i { s with cc := c } = .next (if (setsFlagFrom i).isSome then t else { t with cc := c })) ∧
  (∀ (img : Image) (r : Reg), (State.ofImage img).cc = .z ∧ 0 < ((State.ofImage img).readReg r).toInt)

/-- 10_state.md R24: the pc after every instruction, row by row. The rows of TRAP and of the undefined opcodes rest
on the spec's own decisions D5 and D4 (entries 8 and 6). -/
def Obligations.ProgramCounterAfterEveryInstruction : Prop :=
  ∀ (i : Instr) (s : State), ∃ t, exec i s = .next t ∧ t.pc = pcAfter i s ∧
    (i = .trap → t.run = .halted) ∧
    (∀ ir, i = .undefined1000 ir ∨ i = .undefined1101 ir → t.run = .faulted)

/-- 10_state.md R21: every instruction writes no register but the table's, and a register the table does not list as
read has no influence: changing it beforehand changes the outcome in that register alone, and not even there if the
instruction writes it. -/
def Obligations.RegistersReadAndWrittenAsTabled : Prop :=
  ∀ (i : Instr) (s : State), ∃ t, exec i s = .next t ∧ regsKept s t (regWritten i).toList ∧
    ∀ (q : Reg) (v : Word), q ∉ regsRead i →
      exec i (s.writeReg q v) = .next (if regWritten i = some q then t else t.writeReg q v)

/-- 10_state.md R20: every register, number 0 among them, holds what is written to it, and writing it changes
nothing else. -/
def Obligations.EveryRegisterIsOrdinary : Prop :=
  ∀ (s : State) (r : Reg) (v : Word),
    (s.writeReg r v).readReg r = v ∧ regsKept s (s.writeReg r v) [r] ∧ (s.writeReg r v).pc = s.pc ∧
    (s.writeReg r v).cc = s.cc ∧ memKept s (s.writeReg r v) ∧ controlKept s (s.writeReg r v)

/-- 20_memory.md R43: a store sets one cell and changes no other cell and no other state, for every address and
value, the default 0x7777 among them. -/
def Obligations.StoreChangesOneCell : Prop :=
  ∀ (s : State) (a v : Word),
    (s.memWrite a v).memRead a = v ∧ memKeptBut s (s.memWrite a v) a ∧ regsKept s (s.memWrite a v) [] ∧
    (s.memWrite a v).pc = s.pc ∧ (s.memWrite a v).cc = s.cc ∧ controlKept s (s.memWrite a v)

/-- 20_memory.md R55 (the model's form of memory is entry 1): two memories in canonical form that read alike at
every address are one memory, so the list is the full array of cells. -/
def Obligations.MemoryIsDeterminedByItsCells : Prop :=
  ∀ m m' : Memory, Memory.wf m → Memory.wf m' → (∀ a, m.read a = m'.read a) → m = m'

/-- 20_memory.md R41: only ST, STR and STI change memory, each in the one cell its address computation gives. -/
def Obligations.OnlyStoresChangeMemory : Prop :=
  ∀ (i : Instr) (s : State), ∃ t, exec i s = .next t ∧
    match cellWritten i s with
    | some a => memKeptBut s t a
    | none => memKept s t

/-! ### Operate instructions (41_operate.md) -/

/-- R100. -/
def Obligations.AddRegisterWritesTheWrappedSum : Prop :=
  ∀ (dr sr1 sr2 : Reg) (x : BitVec 2) (s : State),
    decode (0b0001#4 ++ dr ++ sr1 ++ 0b0#1 ++ x ++ sr2) = .addReg dr sr1 sr2 ∧
    ∃ t, exec (.addReg dr sr1 sr2) s = .next t ∧ t.pc = wrap (s.pc.toNat + 1) ∧
      t.readReg dr = wrap ((s.readReg sr1).toNat + (s.readReg sr2).toNat) ∧ flagSays t.cc (t.readReg dr) ∧
      regsKept s t [dr] ∧ memKept s t ∧ controlKept s t

/-- R101. -/
def Obligations.AddImmediateWritesTheWrappedSum : Prop :=
  ∀ (dr sr1 : Reg) (imm5 : BitVec 5) (s : State),
    decode (0b0001#4 ++ dr ++ sr1 ++ 0b1#1 ++ imm5) = .addImm dr sr1 imm5 ∧
    ∃ t, exec (.addImm dr sr1 imm5) s = .next t ∧ t.pc = wrap (s.pc.toNat + 1) ∧
      t.readReg dr = wrap ((s.readReg sr1).toNat + imm5.toInt) ∧ flagSays t.cc (t.readReg dr) ∧
      regsKept s t [dr] ∧ memKept s t ∧ controlKept s t

/-- R102. -/
def Obligations.AndRegisterIsBitwise : Prop :=
  ∀ (dr sr1 sr2 : Reg) (x : BitVec 2) (s : State),
    decode (0b0101#4 ++ dr ++ sr1 ++ 0b0#1 ++ x ++ sr2) = .andReg dr sr1 sr2 ∧
    ∃ t, exec (.andReg dr sr1 sr2) s = .next t ∧ t.pc = wrap (s.pc.toNat + 1) ∧
      (∀ k, (t.readReg dr).getLsbD k = ((s.readReg sr1).getLsbD k && (s.readReg sr2).getLsbD k)) ∧
      flagSays t.cc (t.readReg dr) ∧ regsKept s t [dr] ∧ memKept s t ∧ controlKept s t

/-- R103: the mask is the immediate's two's-complement pattern. -/
def Obligations.AndImmediateIsBitwise : Prop :=
  ∀ (dr sr1 : Reg) (imm5 : BitVec 5) (s : State),
    decode (0b0101#4 ++ dr ++ sr1 ++ 0b1#1 ++ imm5) = .andImm dr sr1 imm5 ∧
    ∃ t, exec (.andImm dr sr1 imm5) s = .next t ∧ t.pc = wrap (s.pc.toNat + 1) ∧
      (∀ k, (t.readReg dr).getLsbD k = ((s.readReg sr1).getLsbD k && (wrap imm5.toInt).getLsbD k)) ∧
      flagSays t.cc (t.readReg dr) ∧ regsKept s t [dr] ∧ memKept s t ∧ controlKept s t

/-- R104: the complement is 0xFFFF minus the source. -/
def Obligations.NotWritesTheComplement : Prop :=
  ∀ (dr sr : Reg) (x : BitVec 6) (s : State),
    decode (0b1001#4 ++ dr ++ sr ++ x) = .not dr sr ∧
    ∃ t, exec (.not dr sr) s = .next t ∧ t.pc = wrap (s.pc.toNat + 1) ∧
      (t.readReg dr).toNat = 0xFFFF - (s.readReg sr).toNat ∧ flagSays t.cc (t.readReg dr) ∧
      regsKept s t [dr] ∧ memKept s t ∧ controlKept s t

/-! ### Data movement (42_load_store.md) -/

/-- R110. -/
def Obligations.LdLoadsThePcRelativeCell : Prop :=
  ∀ (dr : Reg) (off9 : BitVec 9) (s : State),
    decode (0b0010#4 ++ dr ++ off9) = .ld dr off9 ∧
    ∃ t, exec (.ld dr off9) s = .next t ∧ t.pc = wrap (s.pc.toNat + 1) ∧
      t.readReg dr = s.memRead (wrap (s.pc.toNat + 1 + off9.toInt)) ∧ flagSays t.cc (t.readReg dr) ∧
      regsKept s t [dr] ∧ memKept s t ∧ controlKept s t

/-- R111. -/
def Obligations.StStoresToThePcRelativeCell : Prop :=
  ∀ (sr : Reg) (off9 : BitVec 9) (s : State),
    decode (0b0011#4 ++ sr ++ off9) = .st sr off9 ∧ s.pcRelative off9 = wrap (s.pc.toNat + 1 + off9.toInt) ∧
    ∃ t, exec (.st sr off9) s = .next t ∧ t.pc = wrap (s.pc.toNat + 1) ∧
      t.memRead (s.pcRelative off9) = s.readReg sr ∧ memKeptBut s t (s.pcRelative off9) ∧
      regsKept s t [] ∧ t.cc = s.cc ∧ controlKept s t

/-- R112: the address uses the base register's old value. -/
def Obligations.LdrLoadsTheBaseOffsetCell : Prop :=
  ∀ (dr base : Reg) (off6 : BitVec 6) (s : State),
    decode (0b0110#4 ++ dr ++ base ++ off6) = .ldr dr base off6 ∧
    ∃ t, exec (.ldr dr base off6) s = .next t ∧ t.pc = wrap (s.pc.toNat + 1) ∧
      t.readReg dr = s.memRead (wrap ((s.readReg base).toNat + off6.toInt)) ∧ flagSays t.cc (t.readReg dr) ∧
      regsKept s t [dr] ∧ memKept s t ∧ controlKept s t

/-- R113. -/
def Obligations.StrStoresToTheBaseOffsetCell : Prop :=
  ∀ (sr base : Reg) (off6 : BitVec 6) (s : State),
    decode (0b0111#4 ++ sr ++ base ++ off6) = .str sr base off6 ∧
    s.baseOffset base off6 = wrap ((s.readReg base).toNat + off6.toInt) ∧
    ∃ t, exec (.str sr base off6) s = .next t ∧ t.pc = wrap (s.pc.toNat + 1) ∧
      t.memRead (s.baseOffset base off6) = s.readReg sr ∧ memKeptBut s t (s.baseOffset base off6) ∧
      regsKept s t [] ∧ t.cc = s.cc ∧ controlKept s t

/-- R114: the flag is the data's, not the pointer's. -/
def Obligations.LdiLoadsThroughThePointer : Prop :=
  ∀ (dr : Reg) (off9 : BitVec 9) (s : State),
    decode (0b1010#4 ++ dr ++ off9) = .ldi dr off9 ∧
    ∃ t, exec (.ldi dr off9) s = .next t ∧ t.pc = wrap (s.pc.toNat + 1) ∧
      t.readReg dr = s.memRead (s.memRead (wrap (s.pc.toNat + 1 + off9.toInt))) ∧
      flagSays t.cc (t.readReg dr) ∧ regsKept s t [dr] ∧ memKept s t ∧ controlKept s t

/-- R115: the pointer is read before the write, so a pointer cell that holds its own address is overwritten. -/
def Obligations.StiStoresThroughThePointer : Prop :=
  ∀ (sr : Reg) (off9 : BitVec 9) (s : State),
    decode (0b1011#4 ++ sr ++ off9) = .sti sr off9 ∧
    s.pointer off9 = s.memRead (wrap (s.pc.toNat + 1 + off9.toInt)) ∧
    ∃ t, exec (.sti sr off9) s = .next t ∧ t.pc = wrap (s.pc.toNat + 1) ∧
      t.memRead (s.pointer off9) = s.readReg sr ∧ memKeptBut s t (s.pointer off9) ∧
      regsKept s t [] ∧ t.cc = s.cc ∧ controlKept s t

/-- R116: the address is kept, memory is not accessed and the flag is not changed. -/
def Obligations.LeaWritesTheAddressOnly : Prop :=
  ∀ (dr : Reg) (off9 : BitVec 9) (s : State),
    decode (0b1110#4 ++ dr ++ off9) = .lea dr off9 ∧
    ∃ t, exec (.lea dr off9) s = .next t ∧ t.pc = wrap (s.pc.toNat + 1) ∧
      t.readReg dr = wrap (s.pc.toNat + 1 + off9.toInt) ∧ t.cc = s.cc ∧
      regsKept s t [dr] ∧ memKept s t ∧ controlKept s t

/-! ### Control transfer (43_control.md) -/

/-- R120. -/
def Obligations.BrBranchesOnItsConditionBits : Prop :=
  ∀ (n z p : Bool) (off9 : BitVec 9) (s : State),
    decode (0b0000#4 ++ bit n ++ bit z ++ bit p ++ off9) = .br n z p off9 ∧
    ∃ t, exec (.br n z p off9) s = .next t ∧
      t.pc = (if (n = true ∧ s.cc = .n) ∨ (z = true ∧ s.cc = .z) ∨ (p = true ∧ s.cc = .p)
        then wrap (s.pc.toNat + 1 + off9.toInt) else wrap (s.pc.toNat + 1)) ∧
      t.cc = s.cc ∧ regsKept s t [] ∧ memKept s t ∧ controlKept s t

/-- R121: the target is the register whole, with no increment. -/
def Obligations.JmpGoesToTheRegister : Prop :=
  ∀ (x : BitVec 3) (base : Reg) (y : BitVec 6) (s : State),
    decode (0b1100#4 ++ x ++ base ++ y) = .jmp base ∧
    ∃ t, exec (.jmp base) s = .next t ∧ t.pc = s.readReg base ∧
      t.cc = s.cc ∧ regsKept s t [] ∧ memKept s t ∧ controlKept s t

/-- R122: RET is JMP with BaseR = 7. -/
def Obligations.RetIsJmpThroughTheLinkRegister : Prop :=
  decode 0xC1C0 = .jmp 7 ∧ encode (.jmp 7) = 0xC1C0 ∧
  ∀ s : State, ∃ t, exec (.jmp 7) s = .next t ∧ t.pc = s.readReg 7 ∧ t.readReg 7 = s.readReg 7

/-- R123: target and link are both relative to the address after the call. -/
def Obligations.JsrCallsThePcRelativeTarget : Prop :=
  ∀ (off11 : BitVec 11) (s : State),
    decode (0b0100#4 ++ 0b1#1 ++ off11) = .jsr off11 ∧
    ∃ t, exec (.jsr off11) s = .next t ∧ t.pc = wrap (s.pc.toNat + 1 + off11.toInt) ∧
      t.readReg 7 = wrap (s.pc.toNat + 1) ∧ t.cc = s.cc ∧ regsKept s t [7] ∧ memKept s t ∧ controlKept s t

/-- R124: the base is read before x[7] is written, so BaseR = 7 jumps to the old x[7]. -/
def Obligations.JsrrCallsTheRegisterTarget : Prop :=
  ∀ (x : BitVec 2) (base : Reg) (y : BitVec 6) (s : State),
    decode (0b0100#4 ++ 0b0#1 ++ x ++ base ++ y) = .jsrr base ∧
    ∃ t, exec (.jsrr base) s = .next t ∧ t.pc = s.readReg base ∧
      t.readReg 7 = wrap (s.pc.toNat + 1) ∧ t.cc = s.cc ∧ regsKept s t [7] ∧ memKept s t ∧ controlKept s t

/-! ### TRAP, the undefined opcodes and the decode error (44_trap_and_reserved.md, 60_exceptions.md) -/

/-- R130: every word with opcode 1111 halts, whatever its low twelve bits, and changes nothing else; a program of
one such word ends its run in one step with every register at 0x7777. That pc is not advanced is the spec's own
decision D5 (entry 8). -/
def Obligations.TrapHaltsAndChangesNothingElse : Prop :=
  ∀ x : BitVec 12,
    decode (0b1111#4 ++ x) = .trap ∧
    (∀ s : State, ∃ t, exec .trap s = .next t ∧ t.run = .halted ∧ t.pc = s.pc ∧ t.cc = s.cc ∧
      regsKept s t [] ∧ memKept s t ∧ recordKept s t) ∧
    ∀ start : Word, ∃ t, step (State.ofImage ⟨start, [0b1111#4 ++ x]⟩) = .next t ∧ t.run = .halted ∧
      ∀ r, t.readReg r = 0x7777

/-- R131: every word with opcode 1000 raises the decode error, recorded with its address and the whole word (the
spec's own decisions D3 and D4, entry 6). -/
def Obligations.Opcode1000RaisesDecodeError : Prop :=
  ∀ (x : BitVec 12) (s : State),
    decode (0b1000#4 ++ x) = .undefined1000 (0b1000#4 ++ x) ∧
    ∃ t, exec (.undefined1000 (0b1000#4 ++ x)) s = .next t ∧ t.faultCause = .decodeError ∧ t.faultPc = s.pc ∧
      t.faultIr = 0b1000#4 ++ x ∧ t.run = .faulted ∧ t.pc = s.pc ∧ t.cc = s.cc ∧ regsKept s t [] ∧ memKept s t

/-- R132: every word with opcode 1101 raises the decode error in the same way (decisions D3 and D4, entry 6). -/
def Obligations.Opcode1101RaisesDecodeError : Prop :=
  ∀ (x : BitVec 12) (s : State),
    decode (0b1101#4 ++ x) = .undefined1101 (0b1101#4 ++ x) ∧
    ∃ t, exec (.undefined1101 (0b1101#4 ++ x)) s = .next t ∧ t.faultCause = .decodeError ∧ t.faultPc = s.pc ∧
      t.faultIr = 0b1101#4 ++ x ∧ t.run = .faulted ∧ t.pc = s.pc ∧ t.cc = s.cc ∧ regsKept s t [] ∧ memKept s t

/-- R141: a step of the running block at a word with an undefined opcode writes the fault record and the run state
and changes nothing else. What the record holds and that the rest is untouched are the spec's own decisions D3 and
D4 (entry 6). -/
def Obligations.DecodeErrorEntryIsPrecise : Prop :=
  ∀ s : State, s.run = .running → undefinedOpcode (s.memRead s.pc) →
    ∃ t, step s = .next t ∧ t.faultCause = .decodeError ∧ t.faultPc = s.pc ∧ t.faultIr = s.memRead s.pc ∧
      t.run = .faulted ∧ t.pc = s.pc ∧ t.cc = s.cc ∧ regsKept s t [] ∧ memKept s t

/-! ### The run (40_step_and_dispatch.md, 10_state.md, 20_memory.md) -/

/-- 40_step_and_dispatch.md R94 (derived there, with decisions D4 and D5; entries 6 and 8): the three outcomes of a
step of the running block, by the fetched word's opcode. -/
def Obligations.StepHasOneOfThreeOutcomes : Prop :=
  ∀ s : State, s.run = .running → ∃ t, step s = .next t ∧
    (opcodeOf (s.memRead s.pc) = 0b1111#4 → t.run = .halted ∧ t.pc = s.pc ∧ t.cc = s.cc ∧ regsKept s t [] ∧
      memKept s t ∧ recordKept s t) ∧
    (undefinedOpcode (s.memRead s.pc) → t.run = .faulted ∧ t.pc = s.pc ∧ t.cc = s.cc ∧ regsKept s t [] ∧
      memKept s t ∧ t.faultCause = .decodeError ∧ t.faultPc = s.pc ∧ t.faultIr = s.memRead s.pc) ∧
    (opcodeOf (s.memRead s.pc) ≠ 0b1111#4 → ¬ undefinedOpcode (s.memRead s.pc) →
      t.run = .running ∧ recordKept s t)

/-- 40_step_and_dispatch.md R98 (that the step function answers the unchanged state is the model's choice, entry 5):
once the block is Halted or Faulted, any number of steps leaves the state as it is. -/
def Obligations.StoppedBlockNeverChanges : Prop :=
  ∀ (k : Nat) (s : State), s.run ≠ .running → Reaches k s s

/-- No number of steps from any state, whatever its registers, pc, flag and memory, is stopped by a fault or a
refusal of the model. That nothing but an undefined opcode raises an exception is 60_exceptions.md R143 and
20_memory.md R54. Two things are choices: a word with an undefined opcode is followed by a next state, with run
Faulted, and not by a fault of the model (the spec's own decision D2, entry 6), and a stopped block answers its
unchanged state, so that every k has a state (the model's choice, entry 5). -/
def Obligations.NoStepIsEverStopped : Prop :=
  ∀ (k : Nat) (s : State), ∃ t, Reaches k s t

/-- 40_step_and_dispatch.md R96, 60_exceptions.md R140: from a running block, a run has halted exactly when one of
its steps fetched a word with opcode 1111, and has faulted exactly when one fetched a word with an undefined opcode.
That Faulted is a state of the machine is the spec's own decision D2 (entry 6); that steps past the end answer the
unchanged state is the model's choice (entry 5). -/
def Obligations.RunEndsExactlyAtAStoppingWord : Prop :=
  ∀ (k : Nat) (s t : State), s.run = .running → Reaches k s t →
    (t.run = .halted ↔ ∃ j u, j < k ∧ Reaches j s u ∧ u.run = .running ∧ opcodeOf (u.memRead u.pc) = 0b1111#4) ∧
    (t.run = .faulted ↔ ∃ j u, j < k ∧ Reaches j s u ∧ u.run = .running ∧ undefinedOpcode (u.memRead u.pc))

/-- 20_memory.md R53 (derived there): a store to the cell at pc + 1 is what the next step executes; a store to the
instruction's own cell changes memory and not the instruction in progress. -/
def Obligations.StoreIsSeenByTheNextFetch : Prop :=
  ∀ (s : State) (sr : Reg), s.run = .running →
    (s.memRead s.pc = 0b0011#4 ++ sr ++ 0b000000000#9 →
      ∃ t, step s = .next t ∧ t.pc = wrap (s.pc.toNat + 1) ∧ step t = exec (decode (s.readReg sr)) t) ∧
    (s.memRead s.pc = 0b0011#4 ++ sr ++ 0b111111111#9 →
      ∃ t, step s = .next t ∧ t.pc = wrap (s.pc.toNat + 1) ∧ t.memRead s.pc = s.readReg sr ∧
        memKeptBut s t s.pc ∧ regsKept s t [])

/-- Every step keeps the invariant: memory in canonical form, and the run state, the fault record, pc and the cell
at pc consistent (10_state.md R30; 40_step_and_dispatch.md R94, R96; 44_trap_and_reserved.md R130; 60_exceptions.md
R141). Three of its clauses are choices: memory's canonical form is the model's own (entry 1), that pc at Halted
stands at the TRAP word is the spec's own decision D5 on 44_trap_and_reserved.md R130 (entry 8), and what the fault
record holds and that pc and memory are untouched at Faulted are its decisions D3 and D4 on 60_exceptions.md R141
(entry 6). From a stopped state the step answers that state (entry 5). -/
def Obligations.EveryStepKeepsTheInvariant : Prop :=
  ∀ s t : State, Inv s → step s = .next t → Inv t

/-- The invariant holds right after reset (10_state.md R33): nothing is listed in memory, which is the model's
canonical form (entry 1), run is Running and no fault is recorded. -/
def Obligations.ResetMeetsTheInvariant : Prop := Inv State.reset

/-- The invariant holds all along every run of every image (10_state.md R30; 40_step_and_dispatch.md R96;
44_trap_and_reserved.md R130; 60_exceptions.md R141; 70_reset_and_hazards.md R160). Three of its clauses are
choices: memory's canonical form is the model's own (entry 1), that pc at Halted stands at the TRAP word is the
spec's own decision D5 on 44_trap_and_reserved.md R130 (entry 8), and what the fault record holds and that pc and
memory are untouched at Faulted are its decisions D3 and D4 on 60_exceptions.md R141 (entry 6). Steps past the end
answer the unchanged state (entry 5). -/
def Obligations.EveryRunOfEveryImageMeetsTheInvariant : Prop :=
  ∀ (img : Image) (k : Nat) (t : State), Reaches k (State.ofImage img) t → Inv t

/-! ### Reset, image and host interface (70_reset_and_hazards.md, 10_state.md) -/

/-- 10_state.md R33, 70_reset_and_hazards.md R160, R162: the state at the start of a run of any image. Word i stands
at start + i unless a later word was placed over it, and every cell no word covers reads 0x7777. That the address
wraps and a later word wins is the spec's own decision D7 (entry 10). -/
def Obligations.StartStateOfEveryImage : Prop :=
  ∀ img : Image,
    (∀ r, (State.ofImage img).readReg r = 0x7777) ∧ (State.ofImage img).pc = img.start ∧
    (State.ofImage img).cc = .z ∧ (State.ofImage img).run = .running ∧ (State.ofImage img).faultCause = .none ∧
    (∀ i (h : i < img.words.length), (∀ j, i < j → j < img.words.length → (j - i) % 65536 ≠ 0) →
      (State.ofImage img).memRead (wrap (img.start.toNat + i)) = img.words[i]) ∧
    (∀ a, (∀ i, i < img.words.length → a ≠ wrap (img.start.toNat + i)) → (State.ofImage img).memRead a = 0x7777)

/-- 10_state.md R33 without an image: what reset leaves. The start address of State.reset is the model's choice
(entry 2) and no clause says it. -/
def Obligations.ResetLeavesTheStartValues : Prop :=
  (∀ r, State.reset.readReg r = 0x7777) ∧ State.reset.cc = .z ∧ State.reset.run = .running ∧
  State.reset.faultCause = .none ∧ ∀ a, State.reset.memRead a = 0x7777

/-- 70_reset_and_hazards.md R165, R166: a launch starts from any stopped block and keeps nothing of the earlier run;
from a running block there is none (that the model answers a named fault is its own choice, entry 13). -/
def Obligations.LaunchKeepsNothingOfTheEarlierRun : Prop :=
  ∀ (img : Image) (s : State),
    (s.run ≠ .running → launch img s = .next (State.ofImage img)) ∧
    (s.run = .running → launch img s = .fault .launchWhileRunning)

/-- 70_reset_and_hazards.md R167, R168, R171 (decisions D10, D24; entry 14): the registers are presented exactly at
Halted and the fault record exactly at Faulted. -/
def Obligations.ReadOutsFollowTheRunState : Prop :=
  ∀ s : State, runReadOut s = s.run ∧
    (∀ v : Vector Word 8, registerReadOut s = some v ↔ s.run = .halted ∧ ∀ r : Reg, v[r.toNat]'r.isLt = s.readReg r) ∧
    (∀ c p w, faultReadOut s = some (c, p, w) ↔
      s.run = .faulted ∧ c = s.faultCause ∧ p = s.faultPc ∧ w = s.faultIr)
end

