-- ==== Sys2Proof/Laws/Encoding.lean ====
section
/-! SUPPORT. The encoding as arithmetic: the number of a word built field by field, one lemma per format
(30_encoding.md R63), and each field and opcode bit of a word as a quotient and a remainder of its number. With
them a claim about the decoder or the encoder is a claim of linear arithmetic. -/

namespace Sys2Proof

theorem toNat_append_eq {n m : Nat} (x : BitVec n) (y : BitVec m) :
    (x ++ y).toNat = x.toNat * 2 ^ m + y.toNat := by
  rw [BitVec.toNat_append, Nat.shiftLeft_eq, Nat.mul_comm, Nat.two_pow_add_eq_or_of_lt y.isLt]

/-- PCR: oooo ddd iiiiiiiii. -/
theorem toNat_pcr (o : BitVec 4) (d : Reg) (i : BitVec 9) :
    BitVec.toNat (w := 16) (o ++ d ++ i) = o.toNat * 4096 + d.toNat * 512 + i.toNat := by
  refine (toNat_append_eq (o ++ d) i).trans ?_
  simp only [toNat_append_eq]
  omega

/-- BR: oooo n z p iiiiiiiii. -/
theorem toNat_br (o : BitVec 4) (n z p : BitVec 1) (i : BitVec 9) :
    BitVec.toNat (w := 16) (o ++ n ++ z ++ p ++ i) =
      o.toNat * 4096 + n.toNat * 2048 + z.toNat * 1024 + p.toNat * 512 + i.toNat := by
  refine (toNat_append_eq (o ++ n ++ z ++ p) i).trans ?_
  simp only [toNat_append_eq]
  omega

/-- OPR: oooo ddd aaa m xx bbb. -/
theorem toNat_opr (o : BitVec 4) (d a : Reg) (m : BitVec 1) (x : BitVec 2) (b : Reg) :
    BitVec.toNat (w := 16) (o ++ d ++ a ++ m ++ x ++ b) =
      o.toNat * 4096 + d.toNat * 512 + a.toNat * 64 + m.toNat * 32 + x.toNat * 8 + b.toNat := by
  refine (toNat_append_eq (o ++ d ++ a ++ m ++ x) b).trans ?_
  simp only [toNat_append_eq]
  omega

/-- OPI: oooo ddd aaa m iiiii. -/
theorem toNat_opi (o : BitVec 4) (d a : Reg) (m : BitVec 1) (i : BitVec 5) :
    BitVec.toNat (w := 16) (o ++ d ++ a ++ m ++ i) =
      o.toNat * 4096 + d.toNat * 512 + a.toNat * 64 + m.toNat * 32 + i.toNat := by
  refine (toNat_append_eq (o ++ d ++ a ++ m) i).trans ?_
  simp only [toNat_append_eq]
  omega

/-- BASE, NOT and JMP: oooo ddd aaa iiiiii. -/
theorem toNat_base (o : BitVec 4) (d a : Reg) (i : BitVec 6) :
    BitVec.toNat (w := 16) (o ++ d ++ a ++ i) = o.toNat * 4096 + d.toNat * 512 + a.toNat * 64 + i.toNat := by
  refine (toNat_append_eq (o ++ d ++ a) i).trans ?_
  simp only [toNat_append_eq]
  omega

/-- JSR: oooo m iiiiiiiiiii. -/
theorem toNat_jsr (o : BitVec 4) (m : BitVec 1) (i : BitVec 11) :
    BitVec.toNat (w := 16) (o ++ m ++ i) = o.toNat * 4096 + m.toNat * 2048 + i.toNat := by
  refine (toNat_append_eq (o ++ m) i).trans ?_
  simp only [toNat_append_eq]
  omega

/-- JSRR: oooo m xx aaa xxxxxx. -/
theorem toNat_jsrr (o : BitVec 4) (m : BitVec 1) (x : BitVec 2) (a : Reg) (y : BitVec 6) :
    BitVec.toNat (w := 16) (o ++ m ++ x ++ a ++ y) =
      o.toNat * 4096 + m.toNat * 2048 + x.toNat * 512 + a.toNat * 64 + y.toNat := by
  refine (toNat_append_eq (o ++ m ++ x ++ a) y).trans ?_
  simp only [toNat_append_eq]
  omega

/-- TRAP and the undefined rows: oooo xxxxxxxxxxxx. -/
theorem toNat_trap (o : BitVec 4) (x : BitVec 12) :
    BitVec.toNat (w := 16) (o ++ x) = o.toNat * 4096 + x.toNat := by
  exact toNat_append_eq o x

/-- A bit of a word as a quotient and a remainder. -/
theorem getLsbD_eq (w : Word) (k : Nat) : w.getLsbD k = decide (w.toNat / 2 ^ k % 2 = 1) := by
  rw [BitVec.getLsbD, Nat.testBit_eq_decide_div_mod_eq]

theorem toNat_extract_eq (w : Word) (lo len : Nat) : (w.extractLsb' lo len).toNat = w.toNat / 2 ^ lo % 2 ^ len := by
  rw [BitVec.extractLsb'_toNat, Nat.shiftRight_eq_div_pow]

theorem toNat_fieldDR (w : Word) : (fieldDR w).toNat = w.toNat / 512 % 8 := toNat_extract_eq w 9 3
theorem toNat_fieldBase (w : Word) : (fieldBase w).toNat = w.toNat / 64 % 8 := toNat_extract_eq w 6 3
theorem toNat_fieldSR2 (w : Word) : (fieldSR2 w).toNat = w.toNat % 8 :=
  (toNat_extract_eq w 0 3).trans (by norm_num)
theorem toNat_fieldImm5 (w : Word) : (fieldImm5 w).toNat = w.toNat % 32 :=
  (toNat_extract_eq w 0 5).trans (by norm_num)
theorem toNat_fieldOff6 (w : Word) : (fieldOff6 w).toNat = w.toNat % 64 :=
  (toNat_extract_eq w 0 6).trans (by norm_num)
theorem toNat_fieldOff9 (w : Word) : (fieldOff9 w).toNat = w.toNat % 512 :=
  (toNat_extract_eq w 0 9).trans (by norm_num)
theorem toNat_fieldOff11 (w : Word) : (fieldOff11 w).toNat = w.toNat % 2048 :=
  (toNat_extract_eq w 0 11).trans (by norm_num)

/-- The number of a one-bit field. -/
theorem toNat_bit (b : Bool) : (bit b).toNat = b.toNat := by cases b <;> rfl

/-- The instruction a word decodes to, by its opcode as a number: what the decoder's dispatch on four bits says. -/
def decodeByNumber (w : Word) : Instr :=
  match w.toNat / 4096 with
  | 0 => .br (w.getLsbD 11) (w.getLsbD 10) (w.getLsbD 9) (fieldOff9 w)
  | 1 => if w.getLsbD 5 then .addImm (fieldDR w) (fieldBase w) (fieldImm5 w)
    else .addReg (fieldDR w) (fieldBase w) (fieldSR2 w)
  | 2 => .ld (fieldDR w) (fieldOff9 w)
  | 3 => .st (fieldDR w) (fieldOff9 w)
  | 4 => if w.getLsbD 11 then .jsr (fieldOff11 w) else .jsrr (fieldBase w)
  | 5 => if w.getLsbD 5 then .andImm (fieldDR w) (fieldBase w) (fieldImm5 w)
    else .andReg (fieldDR w) (fieldBase w) (fieldSR2 w)
  | 6 => .ldr (fieldDR w) (fieldBase w) (fieldOff6 w)
  | 7 => .str (fieldDR w) (fieldBase w) (fieldOff6 w)
  | 8 => .undefined1000 w
  | 9 => .not (fieldDR w) (fieldBase w)
  | 10 => .ldi (fieldDR w) (fieldOff9 w)
  | 11 => .sti (fieldDR w) (fieldOff9 w)
  | 12 => .jmp (fieldBase w)
  | 13 => .undefined1101 w
  | 14 => .lea (fieldDR w) (fieldOff9 w)
  | _ => .trap

/-- The decoder's dispatch on four bits is dispatch on the opcode's number. -/
theorem decode_eq_decodeByNumber (w : Word) : decode w = decodeByNumber w := by
  have hlt : w.toNat / 4096 < 16 := by have := w.isLt; omega
  have h15 := getLsbD_eq w 15
  have h14 := getLsbD_eq w 14
  have h13 := getLsbD_eq w 13
  have h12 := getLsbD_eq w 12
  generalize hq : w.toNat / 4096 = q at hlt
  rw [show w.toNat / 2 ^ 15 = q / 8 by omega] at h15
  rw [show w.toNat / 2 ^ 14 = q / 4 by omega] at h14
  rw [show w.toNat / 2 ^ 13 = q / 2 by omega] at h13
  rw [show w.toNat / 2 ^ 12 = q by omega] at h12
  unfold decode decodeByNumber
  rw [hq, h15, h14, h13, h12]
  interval_cases q <;> rfl

/-- Two words agree outside a mask exactly when they agree in every bit the mask does not hold. -/
theorem masked_eq_iff (w v m : Word) :
    w &&& ~~~m = v &&& ~~~m ↔ ∀ k, k < 16 → m.getLsbD k = false → w.getLsbD k = v.getLsbD k := by
  constructor
  · intro h k hk hm
    have hb := congrArg (fun u : Word => u.getLsbD k) h
    simp only [BitVec.getLsbD_and, BitVec.getLsbD_not, hm, hk] at hb
    simpa using hb
  · intro h
    apply BitVec.eq_of_getLsbD_eq
    intro k hk
    simp only [BitVec.getLsbD_and, BitVec.getLsbD_not, hk]
    cases hm : m.getLsbD k
    · rw [h k hk hm]
    · simp

/-! The three masks of the opcode table, as arithmetic. -/

theorem and_F000 (w : Word) : w &&& 0xF000#16 = BitVec.ofNat 16 (w.toNat / 4096 * 4096) := by
  have h : w &&& 0xF000#16 = w >>> 12 <<< 12 := by
    ext k hk
    interval_cases k <;> simp
  rw [h]
  apply BitVec.eq_of_toNat_eq
  have := w.isLt
  simp only [BitVec.toNat_shiftLeft, BitVec.toNat_ushiftRight, Nat.shiftLeft_eq, Nat.shiftRight_eq_div_pow,
    BitVec.toNat_ofNat]

theorem and_F800 (w : Word) : w &&& 0xF800#16 = BitVec.ofNat 16 (w.toNat / 2048 * 2048) := by
  have h : w &&& 0xF800#16 = w >>> 11 <<< 11 := by
    ext k hk
    interval_cases k <;> simp
  rw [h]
  apply BitVec.eq_of_toNat_eq
  simp only [BitVec.toNat_shiftLeft, BitVec.toNat_ushiftRight, Nat.shiftLeft_eq, Nat.shiftRight_eq_div_pow,
    BitVec.toNat_ofNat]

theorem and_F020 (w : Word) :
    w &&& 0xF020#16 = BitVec.ofNat 16 (w.toNat / 4096 * 4096 + w.toNat / 32 % 2 * 32) := by
  have h : w &&& 0xF020#16 = (w >>> 12 <<< 12) + (((w >>> 5) &&& 1) <<< 5) := by
    rw [BitVec.add_eq_or_of_and_eq_zero]
    · ext k hk
      interval_cases k <;> simp
    · ext k hk
      interval_cases k <;> simp
  rw [h]
  apply BitVec.eq_of_toNat_eq
  have h1 : ((w >>> 5) &&& 1).toNat = w.toNat / 32 % 2 := by
    simp [BitVec.toNat_and, BitVec.toNat_ushiftRight, Nat.shiftRight_eq_div_pow]
  simp only [BitVec.toNat_add, BitVec.toNat_shiftLeft, BitVec.toNat_ushiftRight, Nat.shiftLeft_eq,
    Nat.shiftRight_eq_div_pow, BitVec.toNat_ofNat, h1]
  omega

end Sys2Proof
end

