-- ==== Sys2Proof/Laws/State.lean ====
section
/-! SUPPORT. One lemma per field per update of State, so that no proof unfolds a record update, and the start values
of State.reset and State.ofImage. -/

namespace Sys2Proof.Machine

@[simp] theorem State.writeReg_pc (s : State) (r : Reg) (v : Word) : (s.writeReg r v).pc = s.pc := rfl
@[simp] theorem State.writeReg_cc (s : State) (r : Reg) (v : Word) : (s.writeReg r v).cc = s.cc := rfl
@[simp] theorem State.writeReg_run (s : State) (r : Reg) (v : Word) : (s.writeReg r v).run = s.run := rfl
@[simp] theorem State.writeReg_faultCause (s : State) (r : Reg) (v : Word) :
    (s.writeReg r v).faultCause = s.faultCause := rfl
@[simp] theorem State.writeReg_faultPc (s : State) (r : Reg) (v : Word) : (s.writeReg r v).faultPc = s.faultPc := rfl
@[simp] theorem State.writeReg_faultIr (s : State) (r : Reg) (v : Word) : (s.writeReg r v).faultIr = s.faultIr := rfl
@[simp] theorem State.writeReg_mem (s : State) (r : Reg) (v : Word) : (s.writeReg r v).mem = s.mem := rfl

@[simp] theorem State.memWrite_regs (s : State) (a v : Word) : (s.memWrite a v).regs = s.regs := rfl
@[simp] theorem State.memWrite_pc (s : State) (a v : Word) : (s.memWrite a v).pc = s.pc := rfl
@[simp] theorem State.memWrite_cc (s : State) (a v : Word) : (s.memWrite a v).cc = s.cc := rfl
@[simp] theorem State.memWrite_run (s : State) (a v : Word) : (s.memWrite a v).run = s.run := rfl
@[simp] theorem State.memWrite_faultCause (s : State) (a v : Word) : (s.memWrite a v).faultCause = s.faultCause := rfl
@[simp] theorem State.memWrite_faultPc (s : State) (a v : Word) : (s.memWrite a v).faultPc = s.faultPc := rfl
@[simp] theorem State.memWrite_faultIr (s : State) (a v : Word) : (s.memWrite a v).faultIr = s.faultIr := rfl

@[simp] theorem State.jumpTo_regs (s : State) (t : Word) : (s.jumpTo t).regs = s.regs := rfl
@[simp] theorem State.jumpTo_pc (s : State) (t : Word) : (s.jumpTo t).pc = t := rfl
@[simp] theorem State.jumpTo_cc (s : State) (t : Word) : (s.jumpTo t).cc = s.cc := rfl
@[simp] theorem State.jumpTo_run (s : State) (t : Word) : (s.jumpTo t).run = s.run := rfl
@[simp] theorem State.jumpTo_faultCause (s : State) (t : Word) : (s.jumpTo t).faultCause = s.faultCause := rfl
@[simp] theorem State.jumpTo_faultPc (s : State) (t : Word) : (s.jumpTo t).faultPc = s.faultPc := rfl
@[simp] theorem State.jumpTo_faultIr (s : State) (t : Word) : (s.jumpTo t).faultIr = s.faultIr := rfl
@[simp] theorem State.jumpTo_mem (s : State) (t : Word) : (s.jumpTo t).mem = s.mem := rfl

@[simp] theorem State.setCC_regs (s : State) (v : Word) : (s.setCC v).regs = s.regs := rfl
@[simp] theorem State.setCC_pc (s : State) (v : Word) : (s.setCC v).pc = s.pc := rfl
@[simp] theorem State.setCC_cc (s : State) (v : Word) : (s.setCC v).cc = ccOf v := rfl
@[simp] theorem State.setCC_run (s : State) (v : Word) : (s.setCC v).run = s.run := rfl
@[simp] theorem State.setCC_faultCause (s : State) (v : Word) : (s.setCC v).faultCause = s.faultCause := rfl
@[simp] theorem State.setCC_faultPc (s : State) (v : Word) : (s.setCC v).faultPc = s.faultPc := rfl
@[simp] theorem State.setCC_faultIr (s : State) (v : Word) : (s.setCC v).faultIr = s.faultIr := rfl
@[simp] theorem State.setCC_mem (s : State) (v : Word) : (s.setCC v).mem = s.mem := rfl

@[simp] theorem State.halt_regs (s : State) : s.halt.regs = s.regs := rfl
@[simp] theorem State.halt_pc (s : State) : s.halt.pc = s.pc := rfl
@[simp] theorem State.halt_cc (s : State) : s.halt.cc = s.cc := rfl
@[simp] theorem State.halt_run (s : State) : s.halt.run = .halted := rfl
@[simp] theorem State.halt_faultCause (s : State) : s.halt.faultCause = s.faultCause := rfl
@[simp] theorem State.halt_faultPc (s : State) : s.halt.faultPc = s.faultPc := rfl
@[simp] theorem State.halt_faultIr (s : State) : s.halt.faultIr = s.faultIr := rfl
@[simp] theorem State.halt_mem (s : State) : s.halt.mem = s.mem := rfl

@[simp] theorem State.raiseDecodeError_regs (s : State) (ir : Word) : (s.raiseDecodeError ir).regs = s.regs := rfl
@[simp] theorem State.raiseDecodeError_pc (s : State) (ir : Word) : (s.raiseDecodeError ir).pc = s.pc := rfl
@[simp] theorem State.raiseDecodeError_cc (s : State) (ir : Word) : (s.raiseDecodeError ir).cc = s.cc := rfl
@[simp] theorem State.raiseDecodeError_run (s : State) (ir : Word) : (s.raiseDecodeError ir).run = .faulted := rfl
@[simp] theorem State.raiseDecodeError_faultCause (s : State) (ir : Word) :
    (s.raiseDecodeError ir).faultCause = .decodeError := rfl
@[simp] theorem State.raiseDecodeError_faultPc (s : State) (ir : Word) :
    (s.raiseDecodeError ir).faultPc = s.pc := rfl
@[simp] theorem State.raiseDecodeError_faultIr (s : State) (ir : Word) : (s.raiseDecodeError ir).faultIr = ir := rfl
@[simp] theorem State.raiseDecodeError_mem (s : State) (ir : Word) : (s.raiseDecodeError ir).mem = s.mem := rfl

@[simp] theorem State.placeFetchWord_regs (s : State) (w : Word) : (s.placeFetchWord w).regs = s.regs := rfl
@[simp] theorem State.placeFetchWord_pc (s : State) (w : Word) : (s.placeFetchWord w).pc = s.pc := rfl
@[simp] theorem State.placeFetchWord_cc (s : State) (w : Word) : (s.placeFetchWord w).cc = s.cc := rfl
@[simp] theorem State.placeFetchWord_run (s : State) (w : Word) : (s.placeFetchWord w).run = .running := rfl
@[simp] theorem State.placeFetchWord_mem (s : State) (w : Word) :
    (s.placeFetchWord w).mem = s.mem.write s.pc w := rfl

/-- Reset is the initialisation with an image of no words (entry 2). -/
theorem State.reset_eq_ofImage : State.reset = State.ofImage ⟨Config.resetStart, []⟩ := rfl

end Sys2Proof.Machine
end

