-- ==== Sys2Proof/Laws/Memory.lean ====
section
/-! SUPPORT. Memory: a read after a write, for every list of cells (no canonical form is needed for it), and that
every memory operation keeps the canonical form. -/

namespace Sys2Proof.Machine

theorem toNat_ne_of_ne {a b : Word} (h : a ≠ b) : a.toNat ≠ b.toNat := fun e => h (BitVec.eq_of_toNat_eq e)

/-- An address that is not listed reads as the default. -/
theorem Memory.read_of_unlisted {m : Memory} {a : Word} (h : ∀ c ∈ m, c.1 ≠ a.toNat) :
    m.read a = Config.defaultWord := by
  induction m with
  | nil => rfl
  | cons c m ih =>
    have hc : c.1 ≠ a.toNat := h c (by simp)
    simp only [Memory.read, if_neg hc]
    exact ih fun d hd => h d (by simp [hd])

theorem Memory.mem_unlist {m : Memory} {a : Word} {c : Nat × Word} :
    c ∈ m.unlist a ↔ c ∈ m ∧ c.1 ≠ a.toNat := by
  simp [Memory.unlist]

theorem Memory.read_unlist_same (m : Memory) (a : Word) : (m.unlist a).read a = Config.defaultWord :=
  Memory.read_of_unlisted fun _ hc => (Memory.mem_unlist.1 hc).2

theorem Memory.read_unlist_other (m : Memory) {a b : Word} (h : b ≠ a) : (m.unlist a).read b = m.read b := by
  have hn := toNat_ne_of_ne h
  induction m with
  | nil => rfl
  | cons c m ih =>
    obtain ⟨k, w⟩ := c
    by_cases hk : k = a.toNat
    · have hkb : k ≠ b.toNat := fun e => hn (e.symm.trans hk)
      have : Memory.unlist ((k, w) :: m) a = Memory.unlist m a := by simp [Memory.unlist, hk]
      rw [this, ih, Memory.read, if_neg hkb]
    · have : Memory.unlist ((k, w) :: m) a = (k, w) :: Memory.unlist m a := by simp [Memory.unlist, hk]
      rw [this, Memory.read, Memory.read, ih]

theorem Memory.read_place_same (a v : Word) {m : Memory} (h : ∀ c ∈ m, c.1 ≠ a.toNat) :
    (Memory.place a v m).read a = v := by
  induction m with
  | nil => simp [Memory.place, Memory.read]
  | cons c m ih =>
    obtain ⟨k, w⟩ := c
    have hk : k ≠ a.toNat := h (k, w) (by simp)
    by_cases hlt : a.toNat < k
    · simp [Memory.place, hlt, Memory.read]
    · simp only [Memory.place, if_neg hlt, Memory.read, if_neg hk]
      exact ih fun d hd => h d (by simp [hd])

theorem Memory.read_place_other (a v : Word) {b : Word} (h : b ≠ a) (m : Memory) :
    (Memory.place a v m).read b = m.read b := by
  have hn : a.toNat ≠ b.toNat := (toNat_ne_of_ne h).symm
  induction m with
  | nil => simp [Memory.place, Memory.read, hn]
  | cons c m ih =>
    obtain ⟨k, w⟩ := c
    by_cases hlt : a.toNat < k
    · simp only [Memory.place, if_pos hlt, Memory.read, if_neg hn]
    · simp only [Memory.place, if_neg hlt, Memory.read, ih]

/-- The cell written reads as the value written (R43). -/
theorem Memory.read_write_same (m : Memory) (a v : Word) : (m.write a v).read a = v := by
  unfold Memory.write
  split
  · rename_i h
    rw [Memory.read_unlist_same, h]
  · exact Memory.read_place_same a v fun _ hc => (Memory.mem_unlist.1 hc).2

/-- Every other cell reads as before (R43). -/
theorem Memory.read_write_other (m : Memory) {a b : Word} (v : Word) (h : b ≠ a) :
    (m.write a v).read b = m.read b := by
  unfold Memory.write
  split
  · exact Memory.read_unlist_other m h
  · rw [Memory.read_place_other a v h, Memory.read_unlist_other m h]

theorem Memory.mem_place {a v : Word} {c : Nat × Word} {m : Memory} :
    c ∈ Memory.place a v m ↔ c = (a.toNat, v) ∨ c ∈ m := by
  induction m with
  | nil => simp [Memory.place]
  | cons d m ih =>
    obtain ⟨k, w⟩ := d
    by_cases hlt : a.toNat < k
    · simp [Memory.place, hlt]
    · simp only [Memory.place, if_neg hlt, List.mem_cons, ih]
      tauto

/-- The empty memory is in canonical form. -/
theorem Memory.wf_nil : Memory.wf [] := by simp [Memory.wf]

theorem Memory.wf_unlist {m : Memory} (h : m.wf) (a : Word) : (m.unlist a).wf :=
  ⟨h.1.filter _, fun c hc => h.2 c (Memory.mem_unlist.1 hc).1⟩

theorem Memory.pairwise_place (a v : Word) {m : Memory} (h : m.Pairwise fun c d => c.1 < d.1)
    (hn : ∀ c ∈ m, c.1 ≠ a.toNat) : (Memory.place a v m).Pairwise fun c d => c.1 < d.1 := by
  induction m with
  | nil => simp [Memory.place]
  | cons d m ih =>
    obtain ⟨k, w⟩ := d
    rw [List.pairwise_cons] at h
    have hk : k ≠ a.toNat := hn (k, w) (by simp)
    by_cases hlt : a.toNat < k
    · simp only [Memory.place, if_pos hlt, List.pairwise_cons, List.mem_cons]
      refine ⟨?_, h.1, h.2⟩
      rintro c (rfl | hc)
      · exact hlt
      · exact lt_trans hlt (h.1 c hc)
    · simp only [Memory.place, if_neg hlt, List.pairwise_cons]
      refine ⟨fun c hc => ?_, ih h.2 fun c hc => hn c (by simp [hc])⟩
      obtain rfl | hc := Memory.mem_place.1 hc
      · show k < a.toNat
        omega
      · exact h.1 c hc

/-- A write keeps the canonical form. -/
theorem Memory.wf_write {m : Memory} (h : m.wf) (a v : Word) : (m.write a v).wf := by
  unfold Memory.write
  split
  · exact Memory.wf_unlist h a
  · rename_i hv
    have hu := Memory.wf_unlist h a
    refine ⟨Memory.pairwise_place a v hu.1 fun _ hc => (Memory.mem_unlist.1 hc).2, fun c hc => ?_⟩
    obtain rfl | hc := Memory.mem_place.1 hc
    · exact ⟨a.isLt, hv⟩
    · exact hu.2 c hc

/-- Placing an image's words keeps the canonical form. -/
theorem Memory.wf_writeAll {m : Memory} (h : m.wf) (a : Word) (ws : List Word) : (m.writeAll a ws).wf := by
  induction ws generalizing m a with
  | nil => exact h
  | cons w ws ih => exact ih (Memory.wf_write h a w) (a + 1)

/-- Reset memory is in canonical form. -/
theorem State.reset_mem_wf : Memory.wf State.reset.mem := Memory.wf_nil

end Sys2Proof.Machine
end

