-- ==== Sys2Proof/Laws/Ops.lean ====
section
/-! SUPPORT. One spec lemma per shared operation: what it says everything of that the meanings built on it do. -/

namespace Sys2Proof.Machine

open Sys2Proof.Safety

/-- A register reads as the value just written to it. -/
theorem State.readReg_writeReg_same (s : State) (r : Reg) (v : Word) : (s.writeReg r v).readReg r = v := by
  simp [State.readReg, State.writeReg]

/-- Every other register reads as before. -/
theorem State.readReg_writeReg_other (s : State) {r q : Reg} (v : Word) (h : q ≠ r) :
    (s.writeReg r v).readReg q = s.readReg q := by
  have hn : r.toNat ≠ q.toNat := fun e => h (BitVec.eq_of_toNat_eq e.symm)
  simp [State.readReg, State.writeReg, hn]

/-- A register write kept out of a list of written registers. -/
theorem State.regsKept_writeReg (s : State) (r : Reg) (v : Word) : regsKept s (s.writeReg r v) [r] :=
  fun q hq => State.readReg_writeReg_other s v (by simpa using hq)

theorem State.memRead_memWrite_same (s : State) (a v : Word) : (s.memWrite a v).memRead a = v :=
  Memory.read_write_same s.mem a v

theorem State.memRead_memWrite_other (s : State) {a b : Word} (v : Word) (h : b ≠ a) :
    (s.memWrite a v).memRead b = s.memRead b :=
  Memory.read_write_other s.mem v h

theorem ccOf_eq_n {v : Word} : ccOf v = .n ↔ v.toInt < 0 := by
  have hm : v.getLsbD 15 = v.msb := rfl
  have ht : v.msb = true ↔ v.toInt < 0 := by simp [BitVec.msb_eq_toInt]
  rw [← ht, ← hm]
  unfold ccOf
  split
  · simp_all
  · split <;> simp_all

/-- The flag of a value says its sign (R27). -/
theorem flagSays_ccOf (v : Word) : flagSays (ccOf v) v := by
  by_cases hn : v.toInt < 0
  · exact .inl ⟨ccOf_eq_n.2 hn, hn⟩
  · have hb : ¬ v.getLsbD 15 = true := fun h => hn (ccOf_eq_n.1 (by simp only [ccOf, if_pos h]))
    by_cases hz : v = 0
    · exact .inr (.inl ⟨by simp only [ccOf, if_neg hb, if_pos hz], by simp [hz]⟩)
    · refine .inr (.inr ⟨by simp only [ccOf, if_neg hb, if_neg hz], ?_⟩)
      have : v.toInt ≠ 0 := fun h => hz (BitVec.eq_of_toInt_eq (by simpa using h))
      omega

/-- All of State.writeResult: pc, the register, the flag of the value, and nothing else. -/
theorem State.writeResult_spec (s : State) (dr : Reg) (v : Word) :
    (s.writeResult dr v).pc = s.pc + 1 ∧ (s.writeResult dr v).readReg dr = v ∧
    flagSays (s.writeResult dr v).cc v ∧ regsKept s (s.writeResult dr v) [dr] ∧
    memKept s (s.writeResult dr v) ∧ controlKept s (s.writeResult dr v) :=
  ⟨rfl, State.readReg_writeReg_same s.advance dr v, flagSays_ccOf v,
    fun q hq => State.readReg_writeReg_other s.advance v (by simpa using hq), fun _ => rfl, rfl, rfl, rfl, rfl⟩

/-- All of State.storeResult: pc, the one cell, and nothing else. -/
theorem State.storeResult_spec (s : State) (a v : Word) :
    (s.storeResult a v).pc = s.pc + 1 ∧ (s.storeResult a v).memRead a = v ∧
    memKeptBut s (s.storeResult a v) a ∧ regsKept s (s.storeResult a v) [] ∧
    (s.storeResult a v).cc = s.cc ∧ controlKept s (s.storeResult a v) :=
  ⟨rfl, State.memRead_memWrite_same s.advance a v, fun _ hb => State.memRead_memWrite_other s.advance v hb,
    fun _ _ => rfl, rfl, rfl, rfl, rfl, rfl⟩

/-- All of State.call: pc, the link register, and nothing else. -/
theorem State.call_spec (s : State) (t : Word) :
    (s.call t).pc = t ∧ (s.call t).readReg linkReg = s.pc + 1 ∧ regsKept s (s.call t) [linkReg] ∧
    memKept s (s.call t) ∧ (s.call t).cc = s.cc ∧ controlKept s (s.call t) :=
  ⟨rfl, State.readReg_writeReg_same (s.jumpTo t) linkReg _,
    fun _ hq => State.readReg_writeReg_other (s.jumpTo t) _ (by simpa using hq), fun _ => rfl, rfl, rfl, rfl, rfl, rfl⟩

/-- pc + 1 as the wrapped sum of integers (R9). -/
theorem State.pcNext_eq (s : State) : s.pcNext = wrap (s.pc.toNat + 1) := by
  apply BitVec.eq_of_toNat_eq
  simp [State.pcNext, BitVec.toNat_add, BitVec.toNat_ofInt]
  omega

/-- A sum with a sign-extended field as the wrapped sum of integers (R7, R9). -/
theorem add_sext_eq {N : Nat} (w : Word) (f : BitVec N) : w + sext f = wrap (w.toNat + f.toInt) := by
  apply BitVec.eq_of_toNat_eq
  simp only [sext, wrap, BitVec.signExtend, BitVec.toNat_add, BitVec.toNat_ofInt]
  omega

/-- The PC-relative address as the wrapped sum of integers (R66, R67). -/
theorem State.pcRelative_eq {N : Nat} (s : State) (f : BitVec N) :
    s.pcRelative f = wrap (s.pc.toNat + 1 + f.toInt) := by
  have h1 : (1 : Word).toNat = 1 := rfl
  apply BitVec.eq_of_toNat_eq
  simp only [State.pcRelative, State.pcNext, sext, wrap, BitVec.signExtend, BitVec.toNat_add, BitVec.toNat_ofInt, h1]
  omega

/-- The base-plus-offset address as the wrapped sum of integers (R65). -/
theorem State.baseOffset_eq (s : State) (base : Reg) (f : BitVec 6) :
    s.baseOffset base f = wrap ((s.readReg base).toNat + f.toInt) := add_sext_eq _ _

/-- What one step does, said once: nothing once stopped, else the decoded instruction. -/
theorem step_cases (s : State) :
    (s.run = .running ∧ step s = exec (decode (s.memRead s.pc)) s) ∨ (s.run ≠ .running ∧ step s = .next s) := by
  unfold step cycle
  cases h : s.run
  · exact .inl ⟨rfl, rfl⟩
  · exact .inr ⟨by simp, rfl⟩
  · exact .inr ⟨by simp, rfl⟩

/-- What one instruction can do, said once: it sets the run state only as TRAP and the undefined rows do, and
otherwise keeps the run state and the fault record and keeps memory or stores one cell. -/
theorem exec_cases (i : Instr) (s : State) : ∃ t, exec i s = .next t ∧
    ((i = .trap ∧ t = s.halt) ∨
     (∃ ir, (i = .undefined1000 ir ∨ i = .undefined1101 ir) ∧ t = s.raiseDecodeError ir) ∨
     (i ≠ .trap ∧ (∀ ir, i ≠ .undefined1000 ir ∧ i ≠ .undefined1101 ir) ∧ controlKept s t ∧
       (t.mem = s.mem ∨ ∃ a v, t.mem = s.mem.write a v))) := by
  cases i with
  | trap => exact ⟨_, rfl, .inl ⟨rfl, rfl⟩⟩
  | undefined1000 ir => exact ⟨_, rfl, .inr (.inl ⟨ir, .inl rfl, rfl⟩)⟩
  | undefined1101 ir => exact ⟨_, rfl, .inr (.inl ⟨ir, .inr rfl, rfl⟩)⟩
  | st sr o => exact ⟨_, rfl, .inr (.inr ⟨by simp, by simp, ⟨rfl, rfl, rfl, rfl⟩, .inr ⟨_, _, rfl⟩⟩)⟩
  | sti sr o => exact ⟨_, rfl, .inr (.inr ⟨by simp, by simp, ⟨rfl, rfl, rfl, rfl⟩, .inr ⟨_, _, rfl⟩⟩)⟩
  | str sr b o => exact ⟨_, rfl, .inr (.inr ⟨by simp, by simp, ⟨rfl, rfl, rfl, rfl⟩, .inr ⟨_, _, rfl⟩⟩)⟩
  | br n z p o =>
    refine ⟨_, rfl, .inr (.inr ⟨by simp, by simp, ?_, .inl ?_⟩)⟩
    · split <;> exact ⟨rfl, rfl, rfl, rfl⟩
    · split <;> rfl
  | _ => exact ⟨_, rfl, .inr (.inr ⟨by simp, by simp, ⟨rfl, rfl, rfl, rfl⟩, .inl rfl⟩)⟩

end Sys2Proof.Machine
end

