-- ==== Sys2Proof/Laws/PerInstr.lean ====
section
/-! SUPPORT. The per-instruction family EncodeOpcode: the word of a well-formed instruction has, in bits [15:12],
the opcode of that instruction's row of the opcode table (30_encoding.md R61, R70). -/

namespace Sys2Proof.Laws.EncodeOpcode

/-- Bits [15:12] of the encoded word are the row's opcode. -/
def Statement (i : Instr) : Prop := i.wellFormed = true → (encode i).toNat / 4096 = i.row.pattern.toNat / 4096

theorem br (n z p : Bool) (off9 : BitVec 9) : Statement (.br n z p off9) := by
  intro _
  show BitVec.toNat (w := 16) (0b0000#4 ++ bit n ++ bit z ++ bit p ++ off9) / 4096 = (0x0000#16).toNat / 4096
  simp only [toNat_br, BitVec.toNat_ofNat]
  omega

theorem addReg (dr sr1 sr2 : Reg) : Statement (.addReg dr sr1 sr2) := by
  intro _
  show BitVec.toNat (w := 16) (0b0001#4 ++ dr ++ sr1 ++ 0b0#1 ++ 0b00#2 ++ sr2) / 4096 = (0x1000#16).toNat / 4096
  simp only [toNat_opr, BitVec.toNat_ofNat]
  omega

theorem addImm (dr sr1 : Reg) (imm5 : BitVec 5) : Statement (.addImm dr sr1 imm5) := by
  intro _
  show BitVec.toNat (w := 16) (0b0001#4 ++ dr ++ sr1 ++ 0b1#1 ++ imm5) / 4096 = (0x1020#16).toNat / 4096
  simp only [toNat_opi, BitVec.toNat_ofNat]
  omega

theorem ld (dr : Reg) (off9 : BitVec 9) : Statement (.ld dr off9) := by
  intro _
  show BitVec.toNat (w := 16) (0b0010#4 ++ dr ++ off9) / 4096 = (0x2000#16).toNat / 4096
  simp only [toNat_pcr, BitVec.toNat_ofNat]
  omega

theorem st (sr : Reg) (off9 : BitVec 9) : Statement (.st sr off9) := by
  intro _
  show BitVec.toNat (w := 16) (0b0011#4 ++ sr ++ off9) / 4096 = (0x3000#16).toNat / 4096
  simp only [toNat_pcr, BitVec.toNat_ofNat]
  omega

theorem jsr (off11 : BitVec 11) : Statement (.jsr off11) := by
  intro _
  show BitVec.toNat (w := 16) (0b0100#4 ++ 0b1#1 ++ off11) / 4096 = (0x4800#16).toNat / 4096
  simp only [toNat_jsr, BitVec.toNat_ofNat]
  omega

theorem jsrr (base : Reg) : Statement (.jsrr base) := by
  intro _
  show BitVec.toNat (w := 16) (0b0100#4 ++ 0b0#1 ++ 0b00#2 ++ base ++ 0b000000#6) / 4096 = (0x4000#16).toNat / 4096
  simp only [toNat_jsrr, BitVec.toNat_ofNat]
  omega

theorem andReg (dr sr1 sr2 : Reg) : Statement (.andReg dr sr1 sr2) := by
  intro _
  show BitVec.toNat (w := 16) (0b0101#4 ++ dr ++ sr1 ++ 0b0#1 ++ 0b00#2 ++ sr2) / 4096 = (0x5000#16).toNat / 4096
  simp only [toNat_opr, BitVec.toNat_ofNat]
  omega

theorem andImm (dr sr1 : Reg) (imm5 : BitVec 5) : Statement (.andImm dr sr1 imm5) := by
  intro _
  show BitVec.toNat (w := 16) (0b0101#4 ++ dr ++ sr1 ++ 0b1#1 ++ imm5) / 4096 = (0x5020#16).toNat / 4096
  simp only [toNat_opi, BitVec.toNat_ofNat]
  omega

theorem ldr (dr base : Reg) (off6 : BitVec 6) : Statement (.ldr dr base off6) := by
  intro _
  show BitVec.toNat (w := 16) (0b0110#4 ++ dr ++ base ++ off6) / 4096 = (0x6000#16).toNat / 4096
  simp only [toNat_base, BitVec.toNat_ofNat]
  omega

theorem str (sr base : Reg) (off6 : BitVec 6) : Statement (.str sr base off6) := by
  intro _
  show BitVec.toNat (w := 16) (0b0111#4 ++ sr ++ base ++ off6) / 4096 = (0x7000#16).toNat / 4096
  simp only [toNat_base, BitVec.toNat_ofNat]
  omega

/-- The check of Instr.wellFormed on an undefined row, as arithmetic. -/
theorem opcode_of_check {ir : Word} {o : BitVec 4} (h : (ir.extractLsb' 12 4 == o) = true) :
    ir.toNat / 4096 = o.toNat := by
  have h := congrArg BitVec.toNat (beq_iff_eq.1 h)
  rw [toNat_extract_eq] at h
  have := ir.isLt
  omega

theorem undefined1000 (ir : Word) : Statement (.undefined1000 ir) := fun h => (opcode_of_check h).trans (by simp [Instr.row])

theorem not (dr sr : Reg) : Statement (.not dr sr) := by
  intro _
  show BitVec.toNat (w := 16) (0b1001#4 ++ dr ++ sr ++ 0b111111#6) / 4096 = (0x9000#16).toNat / 4096
  simp only [toNat_base, BitVec.toNat_ofNat]
  omega

theorem ldi (dr : Reg) (off9 : BitVec 9) : Statement (.ldi dr off9) := by
  intro _
  show BitVec.toNat (w := 16) (0b1010#4 ++ dr ++ off9) / 4096 = (0xA000#16).toNat / 4096
  simp only [toNat_pcr, BitVec.toNat_ofNat]
  omega

theorem sti (sr : Reg) (off9 : BitVec 9) : Statement (.sti sr off9) := by
  intro _
  show BitVec.toNat (w := 16) (0b1011#4 ++ sr ++ off9) / 4096 = (0xB000#16).toNat / 4096
  simp only [toNat_pcr, BitVec.toNat_ofNat]
  omega

theorem jmp (base : Reg) : Statement (.jmp base) := by
  intro _
  show BitVec.toNat (w := 16) (0b1100#4 ++ 0b000#3 ++ base ++ 0b000000#6) / 4096 = (0xC000#16).toNat / 4096
  simp only [toNat_base, BitVec.toNat_ofNat]
  omega

theorem undefined1101 (ir : Word) : Statement (.undefined1101 ir) := fun h => (opcode_of_check h).trans (by simp [Instr.row])

theorem lea (dr : Reg) (off9 : BitVec 9) : Statement (.lea dr off9) := by
  intro _
  show BitVec.toNat (w := 16) (0b1110#4 ++ dr ++ off9) / 4096 = (0xE000#16).toNat / 4096
  simp only [toNat_pcr, BitVec.toNat_ofNat]
  omega

theorem trap : Statement .trap := fun _ => rfl

end Sys2Proof.Laws.EncodeOpcode
end

