-- ==== Sys2Proof/Laws/Run.lean ====
section
/-! SUPPORT. What one step of the running block can do, by the opcode of the fetched word, said once; and how a run
of several steps is put together from single steps. -/

namespace Sys2Proof.Machine

open Sys2Proof.Safety

theorem opcodeOf_toNat (w : Word) : (opcodeOf w).toNat = w.toNat / 4096 := by
  have := w.isLt
  unfold opcodeOf
  rw [toNat_extract_eq]
  omega

theorem opcodeOf_eq_iff (w : Word) (k : BitVec 4) : opcodeOf w = k ↔ w.toNat / 4096 = k.toNat := by
  rw [← opcodeOf_toNat]
  exact ⟨fun h => by rw [h], fun h => BitVec.eq_of_toNat_eq h⟩

/-- A word decodes to an instruction of its opcode's row. -/
theorem decode_row_opcode (w : Word) : (decode w).row.pattern.toNat / 4096 = w.toNat / 4096 := by
  rw [decode_eq_decodeByNumber]
  unfold decodeByNumber
  have hlt : w.toNat / 4096 < 16 := by have := w.isLt; omega
  generalize w.toNat / 4096 = q at hlt
  cases w.getLsbD 5 <;> cases w.getLsbD 11 <;> interval_cases q <;> simp [Instr.row]

theorem decode_eq_trap_iff (w : Word) : decode w = .trap ↔ opcodeOf w = 0b1111#4 := by
  rw [opcodeOf_eq_iff]
  constructor
  · intro h
    rw [← decode_row_opcode, h]
    simp [Instr.row]
  · intro h
    rw [decode_eq_decodeByNumber]
    unfold decodeByNumber
    rw [h]
    rfl

/-- The undefined rows are reached from exactly the words with their opcodes, and carry the whole word. -/
theorem decode_undefined_iff (w ir : Word) :
    (decode w = .undefined1000 ir ∨ decode w = .undefined1101 ir) ↔ undefinedOpcode w ∧ ir = w := by
  have h8 : opcodeOf w = 0b1000#4 → decode w = .undefined1000 w := by
    rw [opcodeOf_eq_iff]
    intro h
    rw [decode_eq_decodeByNumber]
    unfold decodeByNumber
    rw [h]
    rfl
  have h13 : opcodeOf w = 0b1101#4 → decode w = .undefined1101 w := by
    rw [opcodeOf_eq_iff]
    intro h
    rw [decode_eq_decodeByNumber]
    unfold decodeByNumber
    rw [h]
    rfl
  constructor
  · rintro (h | h)
    · have ho : opcodeOf w = 0b1000#4 := by
        rw [opcodeOf_eq_iff, ← decode_row_opcode, h]
        simp [Instr.row]
      rw [h8 ho] at h
      injection h with h
      exact ⟨.inl ho, h.symm⟩
    · have ho : opcodeOf w = 0b1101#4 := by
        rw [opcodeOf_eq_iff, ← decode_row_opcode, h]
        simp [Instr.row]
      rw [h13 ho] at h
      injection h with h
      exact ⟨.inr ho, h.symm⟩
  · rintro ⟨h | h, rfl⟩
    · exact .inl (h8 h)
    · exact .inr (h13 h)

theorem opcodeOf_ne_trap {w : Word} (h : undefinedOpcode w) : opcodeOf w ≠ 0b1111#4 := by
  rcases h with h | h <;> rw [h] <;> decide

theorem step_of_running {s : State} (h : s.run = .running) : step s = exec (decode (s.memRead s.pc)) s :=
  (step_cases s).elim (·.2) (absurd h ·.1)

theorem step_of_stopped {s : State} (h : s.run ≠ .running) : step s = .next s :=
  (step_cases s).elim (absurd ·.1 h) (·.2)

/-- What a step of the running block does, by the opcode of the word at pc: it halts, or takes the decode error, or
keeps the run state and the fault record and stores at most one cell. -/
theorem step_running_cases {s : State} (h : s.run = .running) : ∃ t, step s = .next t ∧
    ((opcodeOf (s.memRead s.pc) = 0b1111#4 ∧ t = s.halt) ∨
     (undefinedOpcode (s.memRead s.pc) ∧ t = s.raiseDecodeError (s.memRead s.pc)) ∨
     (opcodeOf (s.memRead s.pc) ≠ 0b1111#4 ∧ ¬ undefinedOpcode (s.memRead s.pc) ∧ controlKept s t ∧
       (t.mem = s.mem ∨ ∃ a v, t.mem = s.mem.write a v))) := by
  rw [step_of_running h]
  obtain ⟨t, e, ⟨a, b⟩ | ⟨ir, a, b⟩ | ⟨a, b, c⟩⟩ := exec_cases (decode (s.memRead s.pc)) s
  · exact ⟨t, e, .inl ⟨(decode_eq_trap_iff _).1 a, b⟩⟩
  · obtain ⟨hu, rfl⟩ := (decode_undefined_iff _ _).1 a
    exact ⟨t, e, .inr (.inl ⟨hu, b⟩)⟩
  · refine ⟨t, e, .inr (.inr ⟨fun hh => a ((decode_eq_trap_iff _).2 hh), fun hh => ?_, c⟩)⟩
    rcases (decode_undefined_iff _ _).2 ⟨hh, rfl⟩ with h8 | h13
    · exact (b _).1 h8
    · exact (b _).2 h13

/-- Every state has a next state. -/
theorem step_next (s : State) : ∃ t, step s = .next t := by
  rcases step_cases s with ⟨_, e⟩ | ⟨_, e⟩
  · obtain ⟨t, ht, _⟩ := exec_cases (decode (s.memRead s.pc)) s
    exact ⟨t, e.trans ht⟩
  · exact ⟨s, e⟩

/-- No steps lead to the state itself. -/
theorem reaches_zero {s t : State} : Reaches 0 s t ↔ s = t :=
  ⟨fun h => by injection h, fun h => by rw [h]; rfl⟩

/-- A first step that has a next state, and the steps after it, on any machine. -/
theorem run_succ_of_next {M : Host.Core} (k : Nat) {s u : M.State} (h : M.step s = .next u) :
    M.run (k + 1) s = M.run k u := by
  rw [Host.Core.run, h]

/-- k + 1 steps are one step and k steps after it. -/
theorem reaches_succ {k : Nat} {s t : State} : Reaches (k + 1) s t ↔ ∃ u, step s = .next u ∧ Reaches k u t := by
  obtain ⟨u, hu⟩ := step_next s
  have hrun : Host.Core.run Sys2Proof.core (k + 1) s = Host.Core.run Sys2Proof.core k u := run_succ_of_next k hu
  show Host.Core.run Sys2Proof.core (k + 1) s = .next t ↔ _
  rw [hrun]
  constructor
  · exact fun h => ⟨u, hu, h⟩
  · rintro ⟨v, hv, h⟩
    have hv := hu.symm.trans hv
    injection hv with hv
    rw [hv]
    exact h

/-- A number of steps leads to one state only. -/
theorem reaches_unique {k : Nat} {s t u : State} (h : Reaches k s t) (h' : Reaches k s u) : t = u := by
  have := h.symm.trans h'
  injection this

end Sys2Proof.Machine
end

