-- ==== Sys2Proof/Tests/Slice0.lean ====
section
/-! SUPPORT. The model's own tests, each expected value a vector V<n> of spec/95_test_vectors.md or a word written out
from 30_encoding.md R63 and R80; and a witness for the hypotheses of every statement that has some. -/

namespace Sys2Proof.Tests

open Sys2Proof.Machine Sys2Proof.Safety

/-- The vectors' reference state: as after reset, with pc = 0x3000. -/
def ref : State := { State.reset with pc := 0x3000 }

/-- The state after one step at a word placed at pc; the start state itself if the step stops. -/
def after (s : State) (w : Word) : State :=
  match step (s.withFetchWord 16 w.toNat) with
  | .next t => t
  | .fault _ => s
  | .refused _ => s

/-! ### Decoding: words written bit by bit from R63 and R80 -/

theorem test_decode_add_register : decode 0b0001_010_011_0_11_100 = .addReg 2 3 4 := by decide
theorem test_decode_add_immediate : decode 0b0001_001_000_1_10000 = .addImm 1 0 0b10000 := by decide
theorem test_decode_and_register : decode 0b0101_110_001_0_00_111 = .andReg 6 1 7 := by decide
theorem test_decode_and_immediate : decode 0b0101_001_010_1_01111 = .andImm 1 2 0b01111 := by decide
theorem test_decode_not : decode 0b1001_001_110_000000 = .not 1 6 := by decide
theorem test_decode_ld : decode 0b0010_100_100000001 = .ld 4 0b100000001 := by decide
theorem test_decode_st : decode 0b0011_100_011111110 = .st 4 0b011111110 := by decide
theorem test_decode_ldr : decode 0b0110_011_101_100001 = .ldr 3 5 0b100001 := by decide
theorem test_decode_str : decode 0b0111_011_101_110111 = .str 3 5 0b110111 := by decide
theorem test_decode_ldi : decode 0b1010_001_000000001 = .ldi 1 1 := by decide
theorem test_decode_sti : decode 0b1011_110_111111111 = .sti 6 0b111111111 := by decide
theorem test_decode_lea : decode 0b1110_111_100000000 = .lea 7 0b100000000 := by decide
theorem test_decode_br : decode 0b0000_1_0_1_000000101 = .br true false true 5 := by decide
theorem test_decode_jmp : decode 0b1100_111_010_111111 = .jmp 2 := by decide
theorem test_decode_jsr : decode 0b0100_1_10000000000 = .jsr 0b10000000000 := by decide
theorem test_decode_jsrr : decode 0b0100_0_11_010_111111 = .jsrr 2 := by decide
theorem test_decode_trap : decode 0b1111_000000100101 = .trap := by decide
theorem test_decode_undefined1000 : decode 0b1000_000000000001 = .undefined1000 0x8001 := by decide
theorem test_decode_undefined1101 : decode 0b1101_111111111110 = .undefined1101 0xDFFE := by decide

/-- The example words of the spec, as the encoder writes them (R83, R101, R80). -/
theorem test_encode_spec_examples :
    encode (.addImm 1 0 1) = 0x1221 ∧ encode (.addReg 2 3 4) = 0x14C4 ∧ encode (.not 3 3) = 0x96FF ∧
    encode (.str 3 5 0b110111) = 0x7777 ∧ encode (.jmp 7) = 0xC1C0 ∧ encode (.jsrr 7) = 0x41C0 ∧
    encode (.lea 0 0x1FE) = 0xE1FE ∧ encode (.br true true true 0x1FF) = 0x0FFF ∧ encode .trap = 0xF025 := by decide

/-- A table word of fewer bits has zeros above; a longer one is no instruction (R60). -/
theorem test_table_word_lengths :
    decodeTableWord 16 0x1221 = some (.addImm 1 0 1) ∧ decodeTableWord 17 0x1221 = none := by decide

/-! ### WellFormed smoke: the ill-formed terms are refused -/

theorem test_wellformed_refuses_undefined1000 : (Instr.undefined1000 0x1221).wellFormed = false := by decide
theorem test_wellformed_refuses_undefined1101 : (Instr.undefined1101 0x8000).wellFormed = false := by decide
theorem test_wellformed_accepts_undefined :
    (Instr.undefined1000 0x8FFF).wellFormed = true ∧ (Instr.undefined1101 0xD000).wellFormed = true := by decide

/-! ### Operate instructions -/

/-- V2. -/
theorem test_add_register_overflow_is_negative :
    let t := after ((ref.writeReg 3 0x7FFF).writeReg 4 1) 0x14C4
    (t.readReg 2, t.cc, t.pc) = (0x8000, .n, 0x3001) := by decide
/-- V6: both operands are read before the write. -/
theorem test_add_register_onto_itself :
    let t := after (ref.writeReg 0 0x4000) 0x1000
    (t.readReg 0, t.cc) = (0x8000, .n) := by decide
/-- V8. -/
theorem test_add_immediate_is_sign_extended :
    let t := after (ref.writeReg 5 0) 0x1B70
    (t.readReg 5, t.cc) = (0xFFF0, .n) := by decide
/-- V7. -/
theorem test_add_immediate_to_zero :
    let t := after (ref.writeReg 5 1) 0x1B7F
    (t.readReg 5, t.cc, t.pc) = (0, .z, 0x3001) := by decide
/-- V13: bits [4:3] are not read. -/
theorem test_and_register :
    let t := after ((ref.writeReg 2 0xF0F0).writeReg 3 0xFF00) 0x529B
    (t.readReg 1, t.cc) = (0xF000, .n) := by decide
/-- V15. -/
theorem test_and_immediate_is_sign_extended :
    let t := after (ref.writeReg 2 0x00FF) 0x52B0
    (t.readReg 1, t.cc) = (0x00F0, .p) := by decide
/-- V19. -/
theorem test_not_to_zero :
    let t := after (ref.writeReg 2 0xFFFF) 0x92BF
    (t.readReg 1, t.cc, t.pc) = (0, .z, 0x3001) := by decide

/-! ### Data movement -/

/-- V23: offset -1 reads the instruction's own cell. -/
theorem test_ld_own_cell :
    let t := after ref 0x25FF
    (t.readReg 2, t.cc, t.pc) = (0x25FF, .p, 0x3001) := by decide
/-- V27: the address wraps below zero. -/
theorem test_ld_wraps :
    let t := after { State.reset with pc := 0, mem := [(0xFF01, 0xBEEF)] } 0x2100
    (t.readReg 0, t.cc, t.pc) = (0xBEEF, .n, 1) := by decide
/-- V29: the flag is kept. -/
theorem test_st :
    let t := after { ref.writeReg 3 0xABCD with cc := .n } 0x3602
    (t.memRead 0x3003, t.cc, t.pc) = (0xABCD, .n, 0x3001) := by decide
/-- V30: offset -1 overwrites the instruction's own cell. -/
theorem test_st_own_cell : (after (ref.writeReg 3 0xABCD) 0x37FF).memRead 0x3000 = 0xABCD := by decide
/-- V33: the base is read before it is overwritten. -/
theorem test_ldr_onto_its_base :
    let t := after { ref.writeReg 1 0x4000 with mem := [(0x401F, 0xFFFF)] } 0x625F
    (t.readReg 1, t.cc) = (0xFFFF, .n) := by decide
/-- V34: the address wraps below zero. -/
theorem test_ldr_wraps :
    let t := after { ref.writeReg 2 0x0010 with mem := [(0xFFF0, 7)] } 0x62A0
    (t.readReg 1, t.cc) = (7, .p) := by decide
/-- V37. -/
theorem test_str :
    let t := after ((ref.writeReg 1 0x55).writeReg 2 0x5000) 0x7283
    (t.memRead 0x5003, t.readReg 2, t.pc) = (0x55, 0x5000, 0x3001) := by decide
/-- V36: the word 0x7777 stores the default over the default, so memory lists the placed word no more than before. -/
theorem test_str_of_the_default : (after ref 0x7777).mem = [] := by decide
/-- V39. -/
theorem test_ldi :
    let t := after { ref with mem := [(0x3002, 0x5000), (0x5000, 0x8000)] } 0xA801
    (t.readReg 4, t.cc) = (0x8000, .n) := by decide
/-- V43: the pointer cell points at itself. -/
theorem test_sti_over_its_pointer :
    (after { ref.writeReg 4 0x1111 with mem := [(0x3002, 0x3002)] } 0xB801).memRead 0x3002 = 0x1111 := by decide
/-- V44: an unwritten pointer cell points at 0x7777. -/
theorem test_sti_through_the_default : (after (ref.writeReg 4 0x1111) 0xB801).memRead 0x7777 = 0x1111 := by decide
/-- V45, V47: the flag is kept and the sum wraps. -/
theorem test_lea :
    (after { ref with cc := .n } 0xE1FE).readReg 0 = 0x2FFF ∧ (after { ref with cc := .n } 0xE1FE).cc = .n ∧
    (after { ref with pc := 0xFFFF, cc := .p } 0xE000).readReg 0 = 0 := by decide

/-! ### Control transfer -/

/-- V51, V53: taken and not taken at the flag Z. -/
theorem test_br : (after ref 0x0500).pc = 0x2F01 ∧ (after ref 0x0203).pc = 0x3001 := by decide
/-- V55, V57: the target wraps; without a condition bit the branch is never taken. -/
theorem test_br_edges :
    (after { ref with pc := 0 } 0x0FFE).pc = 0xFFFF ∧ (after { ref with cc := .n } 0x01FF).pc = 0x3001 := by decide
/-- V60: the unread bits do not matter. -/
theorem test_jmp :
    let t := after (ref.writeReg 2 0x4000) 0xCEBF
    (t.pc, t.readReg 7) = (0x4000, 0x7777) := by decide
/-- V63, V66: the least offset, and the link wraps. -/
theorem test_jsr :
    (after ref 0x4C00).pc = 0x2C01 ∧ (after ref 0x4C00).readReg 7 = 0x3001 ∧
    (after { ref with pc := 0xFFFF } 0x4800).readReg 7 = 0 := by decide
/-- V68: the target is the old x[7]. -/
theorem test_jsrr_through_the_link_register :
    let t := after (ref.writeReg 7 0x5000) 0x41C0
    (t.pc, t.readReg 7) = (0x5000, 0x3001) := by decide

/-! ### The ends of a run -/

/-- V70. -/
theorem test_trap :
    let t := after { ref.writeReg 7 0x1234 with cc := .n } 0xF025
    (t.run, t.pc, t.readReg 7, t.cc, t.faultCause) = (.halted, 0x3000, 0x1234, .n, .none) := by decide
/-- V75. -/
theorem test_undefined1000 :
    let t := after { ref.writeReg 1 1 with cc := .p } 0x8FFF
    (t.run, t.pc, t.faultCause, t.faultPc, t.faultIr, t.cc) = (.faulted, 0x3000, .decodeError, 0x3000, 0x8FFF, .p) := by
  decide
/-- V77. -/
theorem test_undefined1101 :
    let t := after ref 0xDABC
    (t.run, t.pc, t.faultCause, t.faultPc, t.faultIr) = (.faulted, 0x3000, .decodeError, 0x3000, 0xDABC) := by decide

/-! ### The image and the read-outs -/

/-- V81: the load address wraps. -/
theorem test_image_wraps : (State.ofImage ⟨0xFFFF, [0x1021, 0xF025]⟩).mem = [(0, 0xF025), (0xFFFF, 0x1021)] := by decide
/-- R167, R168: registers at Halted only, the fault record at Faulted only. -/
theorem test_read_outs :
    (registerReadOut (after ref 0xF025)).isSome = true ∧ faultReadOut (after ref 0xF025) = none ∧
    registerReadOut (after ref 0xD000) = none ∧ faultReadOut (after ref 0xD000) = some (.decodeError, 0x3000, 0xD000) ∧
    registerReadOut ref = none := by decide

/-! ### Witnesses: hypotheses of the statements, met together -/

/-- A state that runs the word, at 0x3000. -/
def at3000 (w : Word) : State := { ref with mem := [(0x3000, w)] }

/-- StepRunsTheDecodedInstruction. -/
theorem witness_running : (at3000 0x1221).run = .running := rfl
/-- DecodeEncodeAgree, at operand boundaries and both checked rows. -/
theorem witness_well_formed :
    (Instr.addImm 7 7 0b10000).wellFormed = true ∧ (Instr.undefined1000 0x8000).wellFormed = true ∧
    (Instr.undefined1101 0xDFFF).wellFormed = true := by decide
/-- UnreadBitsAreIgnored: two different words that agree in the read bits, for each mask. -/
theorem witness_unread_bits :
    let same := fun w v : Word => w &&& ~~~(decode w).unreadBits = v &&& ~~~(decode w).unreadBits
    same 0x14C4 0x14DC ∧ same 0x92BF 0x9280 ∧ same 0x4080 0x46BF ∧ same 0xC080 0xCEBF ∧ same 0xF000 0xFFFF := by decide
/-- SignExtensionIsTheTwosComplementValue, each width on both sides of the boundary (R64 to R67). -/
theorem witness_sign_extension :
    sext 0x0F#5 = 0x000F ∧ sext 0x10#5 = 0xFFF0 ∧ sext 0x1F#6 = 0x001F ∧ sext 0x20#6 = 0xFFE0 ∧
    sext 0x0FF#9 = 0x00FF ∧ sext 0x100#9 = 0xFF00 ∧ sext 0x3FF#11 = 0x03FF ∧ sext 0x400#11 = 0xFC00 := by decide
/-- SetCCFollowsTheSign: an instruction that sets the flag, and the flag at the boundary values (R27). -/
theorem witness_set_cc :
    setsFlagFrom (.ldi 3 0) = some 3 ∧ (ref.setCC 0x8000).cc = .n ∧ (ref.setCC 0xFFFF).cc = .n ∧
    (ref.setCC 0).cc = .z ∧ (ref.setCC 1).cc = .p ∧ (ref.setCC 0x7FFF).cc = .p := by decide
/-- FlagIsWrittenAndReadWhereDocumented: an instruction that is no BR. -/
theorem witness_not_br : ∀ n z p off9, Instr.lea 0 0 ≠ .br n z p off9 := by simp
/-- ProgramCounterAfterEveryInstruction: the inner hypotheses. -/
theorem witness_stopping_rows : ∃ i j : Instr, i = .trap ∧ (j = .undefined1000 0x8000 ∨ j = .undefined1101 0x8000) :=
  ⟨_, _, rfl, .inl rfl⟩
/-- RegistersReadAndWrittenAsTabled: an unread register, the written one and another. -/
theorem witness_unread_register : (2 : Reg) ∉ regsRead (.addReg 2 3 4) ∧ (5 : Reg) ∉ regsRead (.addReg 2 3 4) := by
  decide
/-- MemoryIsDeterminedByItsCells, at both ends of the space. -/
theorem witness_memory : Memory.wf [(0, 0), (0xFFFF, 1)] ∧ ∀ a : Word, Memory.read [(0, 0)] a = Memory.read [(0, 0)] a :=
  ⟨by decide, fun _ => rfl⟩
/-- DecodeErrorEntryIsPrecise, StepHasOneOfThreeOutcomes: each outcome, at the ends of the opcodes' ranges. -/
theorem witness_outcomes :
    (at3000 0x8000).run = .running ∧ undefinedOpcode ((at3000 0x8000).memRead (at3000 0x8000).pc) ∧
    undefinedOpcode ((at3000 0xDFFF).memRead (at3000 0xDFFF).pc) ∧
    opcodeOf ((at3000 0xFFFF).memRead (at3000 0xFFFF).pc) = 0b1111#4 ∧
    opcodeOf ((at3000 0xEFFF).memRead (at3000 0xEFFF).pc) ≠ 0b1111#4 ∧
    ¬ undefinedOpcode ((at3000 0xEFFF).memRead (at3000 0xEFFF).pc) := by
  unfold undefinedOpcode
  decide
/-- StoppedBlockNeverChanges, LaunchKeepsNothingOfTheEarlierRun: a halted, a faulted and a running block. -/
theorem witness_stopped :
    (after ref 0xF025).run ≠ .running ∧ (after ref 0x8000).run ≠ .running ∧ ref.run = .running := by decide
/-- RunEndsExactlyAtAStoppingWord, EveryStepKeepsTheInvariant: a step that halts and one that faults. -/
theorem witness_run_ends :
    Reaches 1 (at3000 0xF025) (at3000 0xF025).halt ∧ Reaches 1 (at3000 0x8001) ((at3000 0x8001).raiseDecodeError 0x8001) :=
  ⟨reaches_succ.2 ⟨_, rfl, rfl⟩, reaches_succ.2 ⟨_, rfl, rfl⟩⟩
/-- StoreIsSeenByTheNextFetch: ST with offset 0 and with offset -1. -/
theorem witness_store_words :
    (at3000 0x3600).memRead (at3000 0x3600).pc = 0b0011#4 ++ (3 : Reg) ++ 0b000000000#9 ∧
    (at3000 0x37FF).memRead (at3000 0x37FF).pc = 0b0011#4 ++ (3 : Reg) ++ 0b111111111#9 := by decide
/-- EveryStepKeepsTheInvariant: a state that meets the invariant and has a next state. -/
theorem witness_invariant : Inv (at3000 0xF025) ∧ step (at3000 0xF025) = .next (at3000 0xF025).halt :=
  ⟨⟨by decide, by decide, by decide, fun h => absurd h (by decide)⟩, rfl⟩
/-- EveryRunOfEveryImageMeetsTheInvariant: a run of an image. -/
theorem witness_image_run :
    Reaches 1 (State.ofImage ⟨0x3000, [0xF025]⟩) (State.ofImage ⟨0x3000, [0xF025]⟩).halt :=
  reaches_succ.2 ⟨_, rfl, rfl⟩
/-- StartStateOfEveryImage: a word no later word overwrites and an uncovered cell, where the load address wraps. -/
theorem witness_image_cells :
    (∀ j, 1 < j → j < [0x1021#16, 0xF025#16].length → (j - 1) % 65536 ≠ 0) ∧
    ∀ i, i < [0x1021#16, 0xF025#16].length → (0x0001 : Word) ≠ wrap ((0xFFFF#16).toNat + i) := by
  constructor
  · intro j h1 h2
    simp at h2
    omega
  · decide

end Sys2Proof.Tests
end

/-! ## Scope: proofs about 00_scope.md -/

section
namespace Sys2Proof.Machine

/-- R7 as a number, for a field of any width a word can hold: the top bit decides whether 2^16 - 2^N is added. -/
theorem sext_toNat {N : Nat} (hN : N ≤ 16) (f : BitVec N) :
    (sext f).toNat = if f.toNat < 2 ^ (N - 1) then f.toNat else f.toNat + 2 ^ 16 - 2 ^ N := by
  have hpow : 2 ^ N ≤ 2 ^ 16 := Nat.pow_le_pow_right (by decide) hN
  have hlow : f.toNat % 2 ^ 16 = f.toNat := Nat.mod_eq_of_lt (f.isLt.trans_le hpow)
  rw [sext, BitVec.toNat_signExtend, BitVec.toNat_setWidth, hlow, BitVec.msb_eq_decide]
  by_cases htop : f.toNat < 2 ^ (N - 1)
  · simp [htop]
  · simp only [htop, Nat.le_of_not_lt htop, decide_true, if_true, if_false]
    exact (Nat.add_sub_assoc hpow _).symm

/-- Settles O9: the four widths are widths a word can hold, so `sext_toNat` gives each of them. -/
theorem signExtensionIsTheTwosComplementValue : Obligations.SignExtensionIsTheTwosComplementValue := by
  intro N hN f
  have hfits : ∀ M ∈ [5, 6, 9, 11], M ≤ 16 := by decide
  exact sext_toNat (hfits N hN) f

end Sys2Proof.Machine
end

/-! ## State: proofs about 10_state.md -/

section
namespace Sys2Proof.Machine

open Sys2Proof.Safety

/-! ### The invariant along steps and runs -/

/-- Halting at a TRAP word keeps the invariant (R130). -/
theorem inv_halt {s : State} (hi : Inv s) (hrun : s.run = .running) (htrap : opcodeOf (s.memRead s.pc) = 0b1111#4) :
    Inv s.halt where
  canonical := hi.canonical
  running := nofun
  halted _ := ⟨hi.running hrun, htrap⟩
  faulted := nofun

/-- Taking the decode error at an undefined word keeps the invariant (R141). -/
theorem inv_raiseDecodeError {s : State} (hi : Inv s) (hundef : undefinedOpcode (s.memRead s.pc)) :
    Inv (s.raiseDecodeError (s.memRead s.pc)) where
  canonical := hi.canonical
  running := nofun
  halted := nofun
  faulted _ := ⟨rfl, rfl, rfl, hundef⟩

/-- A running state with nothing recorded and memory in canonical form meets the invariant. -/
theorem inv_of_running {s : State} (hwf : s.mem.wf) (hrun : s.run = .running) (hcause : s.faultCause = .none) :
    Inv s where
  canonical := hwf
  running _ := hcause
  halted h := absurd (hrun.symm.trans h) nofun
  faulted h := absurd (hrun.symm.trans h) nofun

/-- A step of the running block keeps the invariant, in each of its three outcomes (R94). -/
theorem inv_step_running {s t : State} (hi : Inv s) (hrun : s.run = .running) (hstep : step s = .next t) : Inv t := by
  obtain ⟨u, hu, houtcome⟩ := step_running_cases hrun
  obtain rfl : u = t := Host.Outcome.next.inj (hu.symm.trans hstep)
  obtain ⟨htrap, rfl⟩ | ⟨hundef, rfl⟩ | ⟨-, -, ⟨hkept, hcause, -, -⟩, hmem⟩ := houtcome
  · exact inv_halt hi hrun htrap
  · exact inv_raiseDecodeError hi hundef
  · refine inv_of_running ?_ (hkept.trans hrun) (hcause.trans (hi.running hrun))
    obtain hsame | ⟨a, v, hwrite⟩ := hmem
    · exact hsame ▸ hi.canonical
    · exact hwrite ▸ Memory.wf_write hi.canonical a v

/-- Settles O44: the running block by its three outcomes, a stopped one because it stays as it is. -/
theorem everyStepKeepsTheInvariant : Obligations.EveryStepKeepsTheInvariant := by
  intro s t hi hstep
  by_cases hrun : s.run = .running
  · exact inv_step_running hi hrun hstep
  · obtain rfl : s = t := Host.Outcome.next.inj ((step_of_stopped hrun).symm.trans hstep)
    exact hi

/-- A predicate that every step keeps holds all along a run that starts in it. -/
theorem reaches_of_step_keeps {P : State → Prop} (hkeeps : ∀ s t, P s → step s = .next t → P t) {k : Nat}
    {s t : State} (hs : P s) (hreach : Reaches k s t) : P t := by
  induction k generalizing s with
  | zero => exact reaches_zero.1 hreach ▸ hs
  | succ k ih =>
    obtain ⟨u, hstep, hrest⟩ := reaches_succ.1 hreach
    exact ih (hkeeps s u hs hstep) hrest

/-- The start of a run of any image meets the invariant (R160). -/
theorem inv_ofImage (img : Image) : Inv (State.ofImage img) :=
  inv_of_running (Memory.wf_writeAll Memory.wf_nil img.start img.words) rfl rfl

/-- Settles O46: the start state meets the invariant and every step keeps it. -/
theorem everyRunOfEveryImageMeetsTheInvariant : Obligations.EveryRunOfEveryImageMeetsTheInvariant :=
  fun img _ _ hreach => reaches_of_step_keeps everyStepKeepsTheInvariant (inv_ofImage img) hreach

/-- Settles O45: reset is the start of the run of an image of no words. -/
theorem resetMeetsTheInvariant : Obligations.ResetMeetsTheInvariant := by
  unfold Obligations.ResetMeetsTheInvariant
  rw [State.reset_eq_ofImage]
  exact inv_ofImage _

/-! ### Registers (R20, R21) -/

/-- Settles O14, by the rules of a register write. -/
theorem everyRegisterIsOrdinary : Obligations.EveryRegisterIsOrdinary :=
  fun s r v => ⟨s.readReg_writeReg_same r v, s.regsKept_writeReg r v, rfl, rfl, fun _ => rfl, rfl, rfl, rfl, rfl⟩

/-- A write after a write: to the same register it hides the earlier one, to another it commutes with it. -/
theorem State.writeReg_writeReg (s : State) (q : Reg) (v : Word) (r : Reg) (w : Word) :
    (s.writeReg q v).writeReg r w = if some r = some q then s.writeReg r w else (s.writeReg r w).writeReg q v := by
  by_cases h : r = q
  · simp [State.writeReg, h]
  · have hne : q.toNat ≠ r.toNat := fun e => h (BitVec.eq_of_toNat_eq e.symm)
    simp [State.writeReg, h, Vector.set_comm _ _ hne]

/-- A register write before an instruction that ends in writeResult with the same result as without it. -/
theorem State.writeReg_writeResult (s : State) (q : Reg) (v : Word) (dr : Reg) {w w' : Word} (hw : w' = w) :
    (s.writeReg q v).writeResult dr w' =
      if some dr = some q then s.writeResult dr w else (s.writeResult dr w).writeReg q v := by
  have h := congrArg (State.setCC · w) (s.advance.writeReg_writeReg q v dr w)
  rw [apply_ite (State.setCC · w)] at h
  exact hw ▸ h

theorem State.writeReg_call (s : State) (q : Reg) (v : Word) {target target' : Word}
    (ht : target' = target) :
    (s.writeReg q v).call target' =
      if some linkReg = some q then s.call target else (s.call target).writeReg q v :=
  ht ▸ (s.jumpTo target).writeReg_writeReg q v linkReg s.pcNext

theorem State.regsKept_writeResult (s : State) (dr : Reg) (v : Word) : regsKept s (s.writeResult dr v) [dr] :=
  s.advance.regsKept_writeReg dr v

theorem State.regsKept_call (s : State) (target : Word) : regsKept s (s.call target) [linkReg] :=
  (s.jumpTo target).regsKept_writeReg linkReg s.pcNext

/-! The one meaning that branches, as one equation for each branch (R120). -/

theorem exec_br_of_taken {n z p : Bool} {s : State} (off9 : BitVec 9) (h : branchTaken n z p s.cc = true) :
    exec (.br n z p off9) s = .next (s.jumpTo (s.pcRelative off9)) :=
  congrArg Host.Outcome.next (if_pos h)

theorem exec_br_of_not_taken {n z p : Bool} {s : State} (off9 : BitVec 9) (h : ¬ branchTaken n z p s.cc = true) :
    exec (.br n z p off9) s = .next s.advance :=
  congrArg Host.Outcome.next (if_neg h)

/-- No register but the tabled destination changes (R21). -/
theorem regsKept_of_exec {i : Instr} {s t : State} (hexec : exec i s = .next t) :
    regsKept s t (regWritten i).toList := by
  cases i with
  | addReg dr _ _ | addImm dr _ _ | andReg dr _ _ | andImm dr _ _ | not dr _ | ld dr _ | ldi dr _ | ldr dr _ _ =>
    cases hexec
    exact s.regsKept_writeResult dr _
  | lea dr _ =>
    cases hexec
    exact s.advance.regsKept_writeReg dr _
  | jsr _ | jsrr _ =>
    cases hexec
    exact s.regsKept_call _
  | br n z p off9 =>
    cases hexec
    split <;> exact fun _ _ => rfl
  | _ =>
    cases hexec
    exact fun _ _ => rfl

/-- A register that is not read has no influence: writing it beforehand is writing it afterwards, unless the
instruction writes it itself (R21). -/
theorem exec_writeReg_of_unread {i : Instr} {s t : State} (hexec : exec i s = .next t) {q : Reg} (v : Word)
    (hq : q ∉ regsRead i) :
    exec i (s.writeReg q v) = .next (if regWritten i = some q then t else t.writeReg q v) := by
  have hread : ∀ r ∈ regsRead i, (s.writeReg q v).readReg r = s.readReg r :=
    fun r hr => s.readReg_writeReg_other v fun e => hq (e ▸ hr)
  cases i with
  | addReg dr sr1 sr2 =>
    cases hexec
    exact congrArg _ (s.writeReg_writeResult q v dr
      (congrArg₂ (· + ·) (hread sr1 (.head _)) (hread sr2 (.tail _ (.head _)))))
  | andReg dr sr1 sr2 =>
    cases hexec
    exact congrArg _ (s.writeReg_writeResult q v dr
      (congrArg₂ (· &&& ·) (hread sr1 (.head _)) (hread sr2 (.tail _ (.head _)))))
  | addImm dr sr1 imm5 =>
    cases hexec
    exact congrArg _ (s.writeReg_writeResult q v dr (congrArg (· + sext imm5) (hread sr1 (.head _))))
  | andImm dr sr1 imm5 =>
    cases hexec
    exact congrArg _ (s.writeReg_writeResult q v dr (congrArg (· &&& sext imm5) (hread sr1 (.head _))))
  | not dr sr =>
    cases hexec
    exact congrArg _ (s.writeReg_writeResult q v dr (congrArg (~~~ ·) (hread sr (.head _))))
  | ldr dr base off6 =>
    cases hexec
    exact congrArg _ (s.writeReg_writeResult q v dr
      (congrArg (fun b => s.memRead (b + sext off6)) (hread base (.head _))))
  | ld dr off9 | ldi dr off9 =>
    cases hexec
    exact congrArg _ (s.writeReg_writeResult q v dr rfl)
  | lea dr off9 =>
    cases hexec
    exact congrArg _ (s.advance.writeReg_writeReg q v dr _)
  | jsr off11 =>
    cases hexec
    exact congrArg _ (s.writeReg_call q v rfl)
  | jsrr base =>
    cases hexec
    exact congrArg _ (s.writeReg_call q v (hread base (.head _)))
  | st sr off9 | sti sr off9 =>
    cases hexec
    exact congrArg (fun w => Host.Outcome.next ((s.storeResult _ w).writeReg q v)) (hread sr (.head _))
  | str sr base off6 =>
    cases hexec
    exact congrArg₂ (fun b w => Host.Outcome.next ((s.storeResult (b + sext off6) w).writeReg q v))
      (hread base (.tail _ (.head _))) (hread sr (.head _))
  | jmp base =>
    cases hexec
    exact congrArg (fun b => Host.Outcome.next ((s.jumpTo b).writeReg q v)) (hread base (.head _))
  | br n z p off9 =>
    by_cases htaken : branchTaken n z p s.cc = true
    · cases (exec_br_of_taken off9 htaken).symm.trans hexec
      exact exec_br_of_taken (s := s.writeReg q v) off9 htaken
    · cases (exec_br_of_not_taken off9 htaken).symm.trans hexec
      exact exec_br_of_not_taken (s := s.writeReg q v) off9 htaken
  | trap | undefined1000 _ | undefined1101 _ =>
    cases hexec
    rfl

/-- Settles O13: the frame of an instruction and the non-interference of the registers it does not read. -/
theorem registersReadAndWrittenAsTabled : Obligations.RegistersReadAndWrittenAsTabled := by
  intro i s
  obtain ⟨t, hexec, -⟩ := exec_cases i s
  exact ⟨t, hexec, regsKept_of_exec hexec, fun q v hq => exec_writeReg_of_unread hexec v hq⟩

/-! ### The program counter (R24) -/

/-- Whether a branch is taken, as the condition bits and the flag (R69). -/
theorem branchTaken_iff (n z p : Bool) (c : CC) :
    branchTaken n z p c = true ↔ (n = true ∧ c = .n) ∨ (z = true ∧ c = .z) ∨ (p = true ∧ c = .p) := by
  cases c <;> simp [branchTaken]

theorem pc_of_exec {i : Instr} {s t : State} (hexec : exec i s = .next t) : t.pc = pcAfter i s := by
  cases i with
  | br n z p off9 =>
    cases hexec
    simp only [pcAfter, ← branchTaken_iff]
    split
    · exact s.pcRelative_eq off9
    · exact s.pcNext_eq
  | jsr off11 =>
    cases hexec
    exact s.pcRelative_eq off11
  | jsrr _ | jmp _ | trap | undefined1000 _ | undefined1101 _ =>
    cases hexec
    rfl
  | _ =>
    cases hexec
    exact s.pcNext_eq

/-- Settles O12: the row by `pc_of_exec`, the run state at the rows that stop. -/
theorem programCounterAfterEveryInstruction : Obligations.ProgramCounterAfterEveryInstruction := by
  intro i s
  obtain ⟨t, hexec, -⟩ := exec_cases i s
  refine ⟨t, hexec, pc_of_exec hexec, ?_, ?_⟩
  · rintro rfl
    cases hexec
    rfl
  · rintro ir (rfl | rfl) <;> cases hexec <;> rfl

/-! ### The condition flag (R27, R28) -/

/-- A flag that says the sign of a value is N, Z or P exactly by that sign: the three readings exclude each other. -/
theorem flagSays_iff {c : CC} {v : Word} (h : flagSays c v) :
    (c = .n ↔ v.toInt < 0) ∧ (c = .z ↔ v.toInt = 0) ∧ (c = .p ↔ 0 < v.toInt) := by
  obtain ⟨rfl, hv⟩ | ⟨rfl, hv⟩ | ⟨rfl, hv⟩ := h <;> simp only [reduceCtorEq, true_iff, false_iff] <;> omega

theorem toInt_neg_iff_getLsbD (v : Word) : v.toInt < 0 ↔ v.getLsbD 15 = true := by
  show _ ↔ v.msb = true
  simp [BitVec.msb_eq_toInt]

theorem toInt_neg_iff_toNat (v : Word) : v.toInt < 0 ↔ 0x8000 ≤ v.toNat := by
  rw [BitVec.toInt_neg_iff]
  omega

theorem toInt_pos_iff_toNat (v : Word) : 0 < v.toInt ↔ 0x0001 ≤ v.toNat ∧ v.toNat ≤ 0x7FFF := by
  rw [BitVec.toInt_eq_toNat_cond]
  split <;> omega

/-- An instruction that sets the flag ends in writeResult, with a result the flag beforehand has no part in (R28). -/
theorem exec_of_setsFlagFrom_some {i : Instr} {dr : Reg} (h : setsFlagFrom i = some dr) (s : State) :
    ∃ v, exec i s = .next (s.writeResult dr v) ∧ ∀ c, exec i { s with cc := c } = .next (s.writeResult dr v) := by
  cases i with
  | addReg _ _ _ | addImm _ _ _ | andReg _ _ _ | andImm _ _ _ | not _ _ | ld _ _ | ldr _ _ _ | ldi _ _ =>
    cases h
    exact ⟨_, rfl, fun _ => rfl⟩
  | _ => cases h

/-- An instruction that does not set the flag keeps it, and carries any other flag along unless it is BR (R28). -/
theorem exec_of_setsFlagFrom_none {i : Instr} (h : setsFlagFrom i = none) (s : State) :
    ∃ t, exec i s = .next t ∧ t.cc = s.cc ∧
      ∀ c, (∀ n z p off9, i ≠ .br n z p off9) → exec i { s with cc := c } = .next { t with cc := c } := by
  cases i with
  | addReg _ _ _ | addImm _ _ _ | andReg _ _ _ | andImm _ _ _ | not _ _ | ld _ _ | ldr _ _ _ | ldi _ _ => cases h
  | br n z p off9 =>
    refine ⟨_, rfl, ?_, fun _ hbr => absurd rfl (hbr n z p off9)⟩
    split <;> rfl
  | _ => exact ⟨_, rfl, rfl, fun _ _ => rfl⟩

/-- Settles O10: SetCC's flag says the sign of its value, and the value is the new content of the destination. -/
theorem setCCFollowsTheSign : Obligations.SetCCFollowsTheSign := by
  constructor
  · intro s v
    obtain ⟨hn, hz, hp⟩ := flagSays_iff (flagSays_ccOf v)
    have hzero : v.toInt = 0 ↔ v = 0x0000 := BitVec.toInt_inj (y := 0x0000)
    exact ⟨hn, hn.trans (toInt_neg_iff_getLsbD v), hn.trans (toInt_neg_iff_toNat v), hz.trans hzero, hp,
      hp.trans (toInt_pos_iff_toNat v), rfl, fun _ _ => rfl, fun _ => rfl, rfl, rfl, rfl, rfl⟩
  · intro i s dr h
    obtain ⟨v, hexec, -⟩ := exec_of_setsFlagFrom_some h s
    obtain ⟨-, hread, -⟩ := s.writeResult_spec dr v
    refine ⟨s.writeResult dr v, hexec, ?_⟩
    rw [hread]
    rfl

/-- Every register of the start state holds the default (R33). -/
theorem readReg_ofImage (img : Image) (r : Reg) : (State.ofImage img).readReg r = Config.defaultWord := by
  simp [State.readReg, State.ofImage]

/-- Settles O11, by whether the instruction sets the flag. -/
theorem flagIsWrittenAndReadWhereDocumented : Obligations.FlagIsWrittenAndReadWhereDocumented := by
  constructor
  · intro i s
    cases h : setsFlagFrom i with
    | some dr =>
      obtain ⟨v, hexec, hother⟩ := exec_of_setsFlagFrom_some h s
      obtain ⟨-, hread, hflag, -⟩ := s.writeResult_spec dr v
      refine ⟨s.writeResult dr v, hexec, ?_, fun c _ => hother c⟩
      show flagSays _ ((s.writeResult dr v).readReg dr)
      rw [hread]
      exact hflag
    | none =>
      exact exec_of_setsFlagFrom_none h s
  · intro img r
    refine ⟨rfl, ?_⟩
    rw [readReg_ofImage]
    decide

/-! ### The start state (R33, R160, R162) -/

/-- Word i + 1 from an address is word i from the next one. -/
theorem add_ofNat_succ (a : Word) (i : Nat) : a + BitVec.ofNat 16 (i + 1) = a + 1 + BitVec.ofNat 16 i := by
  rw [Nat.add_comm, BitVec.ofNat_add, ← BitVec.add_assoc]
  rfl

/-- A cell that no word of the list is placed over keeps its value. -/
theorem Memory.read_writeAll_of_uncovered (m : Memory) (a : Word) (ws : List Word) {b : Word}
    (h : ∀ i < ws.length, b ≠ a + BitVec.ofNat 16 i) : (m.writeAll a ws).read b = m.read b := by
  induction ws generalizing m a with
  | nil => rfl
  | cons w ws ih =>
    have hfirst : b ≠ a := by simpa using h 0 (by simp)
    have hrest : ∀ i < ws.length, b ≠ a + 1 + BitVec.ofNat 16 i :=
      fun i hi => add_ofNat_succ a i ▸ h (i + 1) (by simpa using hi)
    exact (ih (m.write a w) (a + 1) hrest).trans (m.read_write_other w hfirst)

/-- Word i stands at a + i, if no later word is placed over it. -/
theorem Memory.read_writeAll_of_last (m : Memory) (a : Word) (ws : List Word) {i : Nat} (hi : i < ws.length)
    (hlast : ∀ j, i < j → j < ws.length → (j - i) % 65536 ≠ 0) :
    (m.writeAll a ws).read (a + BitVec.ofNat 16 i) = ws[i] := by
  induction ws generalizing m a i with
  | nil => cases hi
  | cons w ws ih =>
    cases i with
    | zero =>
      have huncovered : ∀ j < ws.length, a ≠ a + 1 + BitVec.ofNat 16 j := by
        intro j hj
        have := hlast (j + 1) (by omega) (by simpa using hj)
        bv_omega
      calc (Memory.writeAll m a (w :: ws)).read (a + BitVec.ofNat 16 0)
          = ((m.write a w).writeAll (a + 1) ws).read a := by simp [Memory.writeAll]
        _ = (m.write a w).read a := Memory.read_writeAll_of_uncovered _ _ _ huncovered
        _ = w := m.read_write_same a w
    | succ i =>
      rw [add_ofNat_succ]
      exact ih (m.write a w) (a + 1) (by simpa using hi) fun j hij hj => by
        simpa using hlast (j + 1) (by omega) (by simpa using hj)

/-- The load address of word i as the wrapped sum of integers (R9, R162). -/
theorem wrap_add_natCast (a : Word) (i : Nat) : wrap (a.toNat + i) = a + BitVec.ofNat 16 i := by
  apply BitVec.eq_of_toNat_eq
  simp only [wrap, BitVec.toNat_ofInt, BitVec.toNat_add, BitVec.toNat_ofNat]
  omega

/-- Settles O47: a cell holds the last word placed over it, or the default if there is none. -/
theorem startStateOfEveryImage : Obligations.StartStateOfEveryImage := by
  intro img
  refine ⟨readReg_ofImage img, rfl, rfl, rfl, rfl, fun i hi hlast => ?_, fun a huncovered => ?_⟩
  · rw [wrap_add_natCast]
    exact Memory.read_writeAll_of_last [] img.start img.words hi hlast
  · simp only [wrap_add_natCast] at huncovered
    exact Memory.read_writeAll_of_uncovered [] img.start img.words huncovered

/-- Settles O48: reset is the start of the run of an image of no words. -/
theorem resetLeavesTheStartValues : Obligations.ResetLeavesTheStartValues := by
  unfold Obligations.ResetLeavesTheStartValues
  rw [State.reset_eq_ofImage]
  exact ⟨readReg_ofImage _, rfl, rfl, rfl, fun _ => rfl⟩

end Sys2Proof.Machine
end

/-! ## Memory: proofs about 20_memory.md -/

section
namespace Sys2Proof.Machine

open Sys2Proof.Safety

/-! ### Stores (R41, R43) -/

/-- Settles O15, by the rules of a memory write. -/
theorem storeChangesOneCell : Obligations.StoreChangesOneCell :=
  fun s a v => ⟨s.memRead_memWrite_same a v, fun _ hb => s.memRead_memWrite_other v hb, fun _ _ => rfl, rfl, rfl,
    rfl, rfl, rfl, rfl⟩

/-- An instruction with a tabled cell ends in storeResult, at that cell (R41). -/
theorem exec_of_cellWritten_some {i : Instr} {s : State} {a : Word} (h : cellWritten i s = some a) :
    ∃ v, exec i s = .next (s.storeResult a v) := by
  cases i with
  | st _ _ | str _ _ _ | sti _ _ =>
    cases h
    exact ⟨_, rfl⟩
  | _ => cases h

/-- An instruction without a tabled cell leaves memory as it is (R41). -/
theorem exec_of_cellWritten_none {i : Instr} {s : State} (h : cellWritten i s = none) :
    ∃ t, exec i s = .next t ∧ t.mem = s.mem := by
  cases i with
  | st _ _ | str _ _ _ | sti _ _ => cases h
  | br n z p off9 =>
    refine ⟨_, rfl, ?_⟩
    split <;> rfl
  | _ => exact ⟨_, rfl, rfl⟩

/-- Settles O17, by whether the instruction has a tabled cell. -/
theorem onlyStoresChangeMemory : Obligations.OnlyStoresChangeMemory := by
  intro i s
  cases h : cellWritten i s with
  | some a =>
    obtain ⟨v, hexec⟩ := exec_of_cellWritten_some h
    obtain ⟨-, -, hothers, -⟩ := s.storeResult_spec a v
    exact ⟨_, hexec, hothers⟩
  | none =>
    obtain ⟨t, hexec, hmem⟩ := exec_of_cellWritten_none h
    exact ⟨t, hexec, fun a => congrArg (Memory.read · a) hmem⟩

/-! ### The fields of a word of the PCR format (30_encoding.md R63) -/

theorem fieldDR_pcr (o : BitVec 4) (d : Reg) (off9 : BitVec 9) : fieldDR (o ++ d ++ off9) = d := by
  apply BitVec.eq_of_toNat_eq
  rw [toNat_fieldDR, toNat_pcr]
  omega

theorem fieldOff9_pcr (o : BitVec 4) (d : Reg) (off9 : BitVec 9) : fieldOff9 (o ++ d ++ off9) = off9 := by
  apply BitVec.eq_of_toNat_eq
  rw [toNat_fieldOff9, toNat_pcr]
  omega

theorem opcode_pcr (o : BitVec 4) (d : Reg) (off9 : BitVec 9) :
    BitVec.toNat (w := 16) (o ++ d ++ off9) / 4096 = o.toNat := by
  rw [toNat_pcr]
  omega

theorem decode_st (sr : Reg) (off9 : BitVec 9) : decode (0b0011#4 ++ sr ++ off9) = .st sr off9 := by
  have hopcode := opcode_pcr 0b0011#4 sr off9
  rw [decode_eq_decodeByNumber, decodeByNumber, hopcode]
  exact congrArg₂ Instr.st (fieldDR_pcr _ sr off9) (fieldOff9_pcr _ sr off9)

/-! ### A store and the fetch after it (R53) -/

/-- The step of a running block at an ST word. -/
theorem step_of_st {s : State} {sr : Reg} {off9 : BitVec 9} (hrun : s.run = .running)
    (hword : s.memRead s.pc = 0b0011#4 ++ sr ++ off9) :
    step s = .next (s.storeResult (s.pcRelative off9) (s.readReg sr)) := by
  rw [step_of_running hrun, hword, decode_st]
  rfl

/-- Offset 0 addresses the next cell. -/
theorem State.pcRelative_zero (s : State) : s.pcRelative 0b000000000#9 = s.pcNext :=
  BitVec.add_zero s.pcNext

/-- Offset -1 addresses the instruction's own cell. -/
theorem State.pcRelative_neg_one (s : State) : s.pcRelative 0b111111111#9 = s.pc :=
  add_neg_cancel_right s.pc 1

/-- A value stored to the next cell is what the next step decodes (R53). -/
theorem step_storeResult_pcNext {s : State} (hrun : s.run = .running) (v : Word) :
    step (s.storeResult s.pcNext v) = exec (decode v) (s.storeResult s.pcNext v) := by
  obtain ⟨hpc, hread, -, -, -, hkept, -⟩ := s.storeResult_spec s.pcNext v
  rw [step_of_running (hkept.trans hrun), hpc]
  exact congrArg (fun w => exec (decode w) _) hread

/-- Settles O43: offset 0 stores to the next cell, which the next step fetches; offset -1 to the own cell. -/
theorem storeIsSeenByTheNextFetch : Obligations.StoreIsSeenByTheNextFetch := by
  intro s sr hrun
  refine ⟨fun hword => ?_, fun hword => ?_⟩
  · have hstep := step_of_st hrun hword
    rw [s.pcRelative_zero] at hstep
    exact ⟨_, hstep, s.pcNext_eq, step_storeResult_pcNext hrun _⟩
  · have hstep := step_of_st hrun hword
    rw [s.pcRelative_neg_one] at hstep
    obtain ⟨-, hread, hothers, hregs, -⟩ := s.storeResult_spec s.pc (s.readReg sr)
    exact ⟨_, hstep, s.pcNext_eq, hread, hothers, hregs⟩

end Sys2Proof.Machine
end

/-! ## Encoding: proofs about 30_encoding.md -/

section
namespace Sys2Proof.Machine

open Sys2Proof.Safety

/-! ### A word and its fields, by format (R63)

A word is the concatenation of given fields exactly when reading them from it gives those fields. -/

theorem getLsbD_eq_iff (w : Word) (k : Nat) (b : Bool) : w.getLsbD k = b ↔ w.toNat / 2 ^ k % 2 = b.toNat := by
  rw [getLsbD_eq]
  cases b <;> simp

theorem eq_br_iff {w : Word} {o : BitVec 4} {n z p : Bool} {i : BitVec 9} :
    w = o ++ bit n ++ bit z ++ bit p ++ i ↔
      w.toNat / 4096 = o.toNat ∧ w.getLsbD 11 = n ∧ w.getLsbD 10 = z ∧ w.getLsbD 9 = p ∧ fieldOff9 w = i := by
  simp only [← BitVec.toNat_inj, toNat_br, toNat_bit, toNat_fieldOff9, getLsbD_eq_iff]
  have := n.toNat_le
  have := z.toNat_le
  have := p.toNat_le
  omega

theorem eq_pcr_iff {w : Word} {o : BitVec 4} {d : Reg} {i : BitVec 9} :
    w = o ++ d ++ i ↔ w.toNat / 4096 = o.toNat ∧ fieldDR w = d ∧ fieldOff9 w = i := by
  simp only [← BitVec.toNat_inj, toNat_pcr, toNat_fieldDR, toNat_fieldOff9]
  omega

theorem eq_opr_iff {w : Word} {o : BitVec 4} {d a : Reg} {m : Bool} {x : BitVec 2} {b : Reg} :
    w = o ++ d ++ a ++ bit m ++ x ++ b ↔ w.toNat / 4096 = o.toNat ∧ fieldDR w = d ∧ fieldBase w = a ∧
      w.getLsbD 5 = m ∧ w.extractLsb' 3 2 = x ∧ fieldSR2 w = b := by
  simp only [← BitVec.toNat_inj, toNat_opr, toNat_bit, toNat_fieldDR, toNat_fieldBase, toNat_fieldSR2,
    toNat_extract_eq, getLsbD_eq_iff]
  have := m.toNat_le
  omega

theorem eq_opi_iff {w : Word} {o : BitVec 4} {d a : Reg} {m : Bool} {i : BitVec 5} :
    w = o ++ d ++ a ++ bit m ++ i ↔ w.toNat / 4096 = o.toNat ∧ fieldDR w = d ∧ fieldBase w = a ∧
      w.getLsbD 5 = m ∧ fieldImm5 w = i := by
  simp only [← BitVec.toNat_inj, toNat_opi, toNat_bit, toNat_fieldDR, toNat_fieldBase, toNat_fieldImm5,
    getLsbD_eq_iff]
  have := m.toNat_le
  omega

theorem eq_base_iff {w : Word} {o : BitVec 4} {d a : Reg} {i : BitVec 6} :
    w = o ++ d ++ a ++ i ↔ w.toNat / 4096 = o.toNat ∧ fieldDR w = d ∧ fieldBase w = a ∧ fieldOff6 w = i := by
  simp only [← BitVec.toNat_inj, toNat_base, toNat_fieldDR, toNat_fieldBase, toNat_fieldOff6]
  omega

theorem eq_jsr_iff {w : Word} {o : BitVec 4} {m : Bool} {i : BitVec 11} :
    w = o ++ bit m ++ i ↔ w.toNat / 4096 = o.toNat ∧ w.getLsbD 11 = m ∧ fieldOff11 w = i := by
  simp only [← BitVec.toNat_inj, toNat_jsr, toNat_bit, toNat_fieldOff11, getLsbD_eq_iff]
  have := m.toNat_le
  omega

theorem eq_jsrr_iff {w : Word} {o : BitVec 4} {m : Bool} {x : BitVec 2} {a : Reg} {y : BitVec 6} :
    w = o ++ bit m ++ x ++ a ++ y ↔ w.toNat / 4096 = o.toNat ∧ w.getLsbD 11 = m ∧ w.extractLsb' 9 2 = x ∧
      fieldBase w = a ∧ fieldOff6 w = y := by
  simp only [← BitVec.toNat_inj, toNat_jsrr, toNat_bit, toNat_fieldBase, toNat_fieldOff6, toNat_extract_eq,
    getLsbD_eq_iff]
  have := m.toNat_le
  omega

theorem eq_trap_iff {w : Word} {o : BitVec 4} {x : BitVec 12} :
    w = o ++ x ↔ w.toNat / 4096 = o.toNat ∧ w.extractLsb' 0 12 = x := by
  simp only [← BitVec.toNat_inj, toNat_trap, toNat_extract_eq]
  omega

/-! ### Agreement outside a mask, field by field (R73)

A mask is made of whole fields: the words that agree with a word outside it are those of its format with the same
read fields. -/

theorem append_inj_iff {n m : Nat} {x x' : BitVec n} {y y' : BitVec m} : x ++ y = x' ++ y' ↔ x = x' ∧ y = y' := by
  constructor
  · intro h
    have hx := congrArg (BitVec.extractLsb' m n) h
    have hy := congrArg (BitVec.extractLsb' 0 m) h
    rw [BitVec.extractLsb'_append_eq_left, BitVec.extractLsb'_append_eq_left] at hx
    rw [BitVec.extractLsb'_append_eq_right, BitVec.extractLsb'_append_eq_right] at hy
    exact ⟨hx, hy⟩
  · rintro ⟨rfl, rfl⟩
    rfl

theorem agree_zero_iff {n : Nat} {x y : BitVec n} : x &&& ~~~0#n = y &&& ~~~0#n ↔ x = y := by
  simp

theorem append_agree_iff {n m : Nat} {x u : BitVec n} {y v : BitVec m} {w : BitVec (n + m)} :
    (x ++ y) &&& ~~~(u ++ v) = w &&& ~~~(u ++ v) ↔
      ∃ x' y', w = x' ++ y' ∧ x &&& ~~~u = x' &&& ~~~u ∧ y &&& ~~~v = y' &&& ~~~v := by
  constructor
  · intro h
    refine ⟨w.extractLsb' m n, w.extractLsb' 0 m, BitVec.extractLsb'_append_extractLsb'.symm, ?_⟩
    rw [← BitVec.extractLsb'_append_extractLsb' (x := w)] at h
    simpa only [BitVec.not_append, BitVec.and_append, append_inj_iff] using h
  · rintro ⟨x', y', rfl, hx, hy⟩
    simp only [BitVec.not_append, BitVec.and_append, hx, hy]

/-- A field the mask leaves out has to be the same in both words. -/
theorem agree_append_read {n m : Nat} {x u : BitVec n} {y : BitVec m} {w : BitVec (n + m)} :
    (x ++ y) &&& ~~~(u ++ 0#m) = w &&& ~~~(u ++ 0#m) ↔ ∃ x', x &&& ~~~u = x' &&& ~~~u ∧ x' ++ y = w := by
  rw [append_agree_iff]
  constructor
  · rintro ⟨x', y', rfl, hx, hy⟩
    exact ⟨x', hx, by rw [agree_zero_iff.1 hy]⟩
  · rintro ⟨x', hx, rfl⟩
    exact ⟨x', y, rfl, hx, rfl⟩

/-- A field the mask holds whole is free. -/
theorem agree_append_unread {n m : Nat} {x u : BitVec n} {y : BitVec m} {w : BitVec (n + m)} :
    (x ++ y) &&& ~~~(u ++ BitVec.allOnes m) = w &&& ~~~(u ++ BitVec.allOnes m) ↔
      ∃ x', x &&& ~~~u = x' &&& ~~~u ∧ ∃ y' : BitVec m, x' ++ y' = w := by
  rw [append_agree_iff]
  constructor
  · rintro ⟨x', y', rfl, hx, -⟩
    exact ⟨x', hx, y', rfl⟩
  · rintro ⟨x', hx, y', rfl⟩
    exact ⟨x', y', rfl, hx, by simp⟩

theorem agree_opr_iff {o : BitVec 4} {d a : Reg} {m : BitVec 1} {x : BitVec 2} {b : Reg} {v : Word} :
    (o ++ d ++ a ++ m ++ x ++ b) &&& ~~~0x0018#16 = v &&& ~~~0x0018#16 ↔
      ∃ x' : BitVec 2, o ++ d ++ a ++ m ++ x' ++ b = v := by
  refine (agree_append_read (u := 0#11 ++ BitVec.allOnes 2)).trans ?_
  simp only [agree_append_unread, agree_zero_iff, exists_eq_left', exists_exists_eq_and]

theorem agree_not_iff {o : BitVec 4} {d a : Reg} {y : BitVec 6} {v : Word} :
    (o ++ d ++ a ++ y) &&& ~~~0x003F#16 = v &&& ~~~0x003F#16 ↔ ∃ y' : BitVec 6, o ++ d ++ a ++ y' = v := by
  refine (agree_append_unread (u := 0#10)).trans ?_
  simp only [agree_zero_iff, exists_eq_left']

theorem agree_jsrr_iff {o : BitVec 4} {m : BitVec 1} {x : BitVec 2} {a : Reg} {y : BitVec 6} {v : Word} :
    (o ++ m ++ x ++ a ++ y) &&& ~~~0x063F#16 = v &&& ~~~0x063F#16 ↔
      ∃ (x' : BitVec 2) (y' : BitVec 6), o ++ m ++ x' ++ a ++ y' = v := by
  refine (agree_append_unread (u := 0#5 ++ BitVec.allOnes 2 ++ 0#3)).trans ?_
  simp only [agree_append_read, agree_append_unread, agree_zero_iff, exists_eq_left', exists_exists_eq_and]

theorem agree_jmp_iff {o : BitVec 4} {x a : Reg} {y : BitVec 6} {v : Word} :
    (o ++ x ++ a ++ y) &&& ~~~0x0E3F#16 = v &&& ~~~0x0E3F#16 ↔
      ∃ (x' : Reg) (y' : BitVec 6), o ++ x' ++ a ++ y' = v := by
  refine (agree_append_unread (u := 0#4 ++ BitVec.allOnes 3 ++ 0#3)).trans ?_
  simp only [agree_append_read, agree_append_unread, agree_zero_iff, exists_eq_left', exists_exists_eq_and]

theorem agree_trap_iff {o : BitVec 4} {x : BitVec 12} {v : Word} :
    (o ++ x) &&& ~~~0x0FFF#16 = v &&& ~~~0x0FFF#16 ↔ ∃ x' : BitVec 12, o ++ x' = v := by
  refine (agree_append_unread (u := 0#4)).trans ?_
  simp only [agree_zero_iff, exists_eq_left']

/-! ### The decoder, instruction by instruction (R63, R70)

A word of the instruction's format, whatever stands in its unread bits; ST is `decode_st`. -/

theorem decode_br {w : Word} {n z p : Bool} {off9 : BitVec 9}
    (hw : w = 0b0000#4 ++ bit n ++ bit z ++ bit p ++ off9) : decode w = .br n z p off9 := by
  obtain ⟨ho, hn, hz, hp, hi⟩ := eq_br_iff.1 hw
  rw [decode_eq_decodeByNumber, decodeByNumber, ho, hn, hz, hp, hi]
  rfl

theorem decode_addReg {w : Word} {dr sr1 sr2 : Reg} {x : BitVec 2}
    (hw : w = 0b0001#4 ++ dr ++ sr1 ++ 0b0#1 ++ x ++ sr2) : decode w = .addReg dr sr1 sr2 := by
  obtain ⟨ho, hd, ha, hm, -, hb⟩ := (eq_opr_iff (m := false)).1 hw
  rw [decode_eq_decodeByNumber, decodeByNumber, ho, hm, hd, ha, hb]
  rfl

theorem decode_andReg {w : Word} {dr sr1 sr2 : Reg} {x : BitVec 2}
    (hw : w = 0b0101#4 ++ dr ++ sr1 ++ 0b0#1 ++ x ++ sr2) : decode w = .andReg dr sr1 sr2 := by
  obtain ⟨ho, hd, ha, hm, -, hb⟩ := (eq_opr_iff (m := false)).1 hw
  rw [decode_eq_decodeByNumber, decodeByNumber, ho, hm, hd, ha, hb]
  rfl

theorem decode_addImm {w : Word} {dr sr1 : Reg} {imm5 : BitVec 5}
    (hw : w = 0b0001#4 ++ dr ++ sr1 ++ 0b1#1 ++ imm5) : decode w = .addImm dr sr1 imm5 := by
  obtain ⟨ho, hd, ha, hm, hi⟩ := (eq_opi_iff (m := true)).1 hw
  rw [decode_eq_decodeByNumber, decodeByNumber, ho, hm, hd, ha, hi]
  rfl

theorem decode_andImm {w : Word} {dr sr1 : Reg} {imm5 : BitVec 5}
    (hw : w = 0b0101#4 ++ dr ++ sr1 ++ 0b1#1 ++ imm5) : decode w = .andImm dr sr1 imm5 := by
  obtain ⟨ho, hd, ha, hm, hi⟩ := (eq_opi_iff (m := true)).1 hw
  rw [decode_eq_decodeByNumber, decodeByNumber, ho, hm, hd, ha, hi]
  rfl

theorem decode_ld {w : Word} {dr : Reg} {off9 : BitVec 9}
    (hw : w = 0b0010#4 ++ dr ++ off9) : decode w = .ld dr off9 := by
  obtain ⟨ho, hd, hi⟩ := eq_pcr_iff.1 hw
  rw [decode_eq_decodeByNumber, decodeByNumber, ho, hd, hi]
  rfl

theorem decode_ldi {w : Word} {dr : Reg} {off9 : BitVec 9}
    (hw : w = 0b1010#4 ++ dr ++ off9) : decode w = .ldi dr off9 := by
  obtain ⟨ho, hd, hi⟩ := eq_pcr_iff.1 hw
  rw [decode_eq_decodeByNumber, decodeByNumber, ho, hd, hi]
  rfl

theorem decode_sti {w : Word} {sr : Reg} {off9 : BitVec 9}
    (hw : w = 0b1011#4 ++ sr ++ off9) : decode w = .sti sr off9 := by
  obtain ⟨ho, hd, hi⟩ := eq_pcr_iff.1 hw
  rw [decode_eq_decodeByNumber, decodeByNumber, ho, hd, hi]
  rfl

theorem decode_lea {w : Word} {dr : Reg} {off9 : BitVec 9}
    (hw : w = 0b1110#4 ++ dr ++ off9) : decode w = .lea dr off9 := by
  obtain ⟨ho, hd, hi⟩ := eq_pcr_iff.1 hw
  rw [decode_eq_decodeByNumber, decodeByNumber, ho, hd, hi]
  rfl

theorem decode_jsr {w : Word} {off11 : BitVec 11}
    (hw : w = 0b0100#4 ++ 0b1#1 ++ off11) : decode w = .jsr off11 := by
  obtain ⟨ho, hm, hi⟩ := (eq_jsr_iff (m := true)).1 hw
  rw [decode_eq_decodeByNumber, decodeByNumber, ho, hm, hi]
  rfl

theorem decode_jsrr {w : Word} {base : Reg} {x : BitVec 2} {y : BitVec 6}
    (hw : w = 0b0100#4 ++ 0b0#1 ++ x ++ base ++ y) : decode w = .jsrr base := by
  obtain ⟨ho, hm, -, ha, -⟩ := (eq_jsrr_iff (m := false)).1 hw
  rw [decode_eq_decodeByNumber, decodeByNumber, ho, hm, ha]
  rfl

theorem decode_ldr {w : Word} {dr base : Reg} {off6 : BitVec 6}
    (hw : w = 0b0110#4 ++ dr ++ base ++ off6) : decode w = .ldr dr base off6 := by
  obtain ⟨ho, hd, ha, hi⟩ := eq_base_iff.1 hw
  rw [decode_eq_decodeByNumber, decodeByNumber, ho, hd, ha, hi]
  rfl

theorem decode_str {w : Word} {sr base : Reg} {off6 : BitVec 6}
    (hw : w = 0b0111#4 ++ sr ++ base ++ off6) : decode w = .str sr base off6 := by
  obtain ⟨ho, hd, ha, hi⟩ := eq_base_iff.1 hw
  rw [decode_eq_decodeByNumber, decodeByNumber, ho, hd, ha, hi]
  rfl

theorem decode_not {w : Word} {dr sr : Reg} {x : BitVec 6}
    (hw : w = 0b1001#4 ++ dr ++ sr ++ x) : decode w = .not dr sr := by
  obtain ⟨ho, hd, ha, -⟩ := eq_base_iff.1 hw
  rw [decode_eq_decodeByNumber, decodeByNumber, ho, hd, ha]
  rfl

theorem decode_jmp {w : Word} {x base : Reg} {y : BitVec 6}
    (hw : w = 0b1100#4 ++ x ++ base ++ y) : decode w = .jmp base := by
  obtain ⟨ho, -, ha, -⟩ := eq_base_iff.1 hw
  rw [decode_eq_decodeByNumber, decodeByNumber, ho, ha]
  rfl

theorem decode_trap {w : Word} {x : BitVec 12}
    (hw : w = 0b1111#4 ++ x) : decode w = .trap := by
  obtain ⟨ho, -⟩ := eq_trap_iff.1 hw
  rw [decode_eq_decodeByNumber, decodeByNumber, ho]
  rfl

theorem decode_undefined1000 {w : Word} (ho : opcodeOf w = 0b1000#4) : decode w = .undefined1000 w := by
  rw [decode_eq_decodeByNumber, decodeByNumber, (opcodeOf_eq_iff w 0b1000#4).1 ho]
  rfl

theorem decode_undefined1101 {w : Word} (ho : opcodeOf w = 0b1101#4) : decode w = .undefined1101 w := by
  rw [decode_eq_decodeByNumber, decodeByNumber, (opcodeOf_eq_iff w 0b1101#4).1 ho]
  rfl

/-! ### Decoding what is encoded, and encoding what is decoded (R63, R73) -/

theorem decode_encode {i : Instr} (hwf : i.wellFormed = true) : decode (encode i) = i := by
  cases i with
  | br => exact decode_br rfl
  | addReg => exact decode_addReg rfl
  | addImm => exact decode_addImm rfl
  | ld => exact decode_ld rfl
  | st sr off9 => exact decode_st sr off9
  | jsr => exact decode_jsr rfl
  | jsrr => exact decode_jsrr rfl
  | andReg => exact decode_andReg rfl
  | andImm => exact decode_andImm rfl
  | ldr => exact decode_ldr rfl
  | str => exact decode_str rfl
  | undefined1000 ir => exact decode_undefined1000 (beq_iff_eq.1 hwf)
  | not => exact decode_not rfl
  | ldi => exact decode_ldi rfl
  | sti => exact decode_sti rfl
  | jmp => exact decode_jmp rfl
  | undefined1101 ir => exact decode_undefined1101 (beq_iff_eq.1 hwf)
  | lea => exact decode_lea rfl
  | trap => exact decode_trap rfl

/-- Settles O4, by `decode_encode`. -/
theorem decodeEncodeAgree : Obligations.DecodeEncodeAgree :=
  fun _ hwf => decode_encode hwf

/-- The unread bits are free: every word that agrees with an instruction's own word outside them decodes to it. -/
theorem decode_of_agree {i : Instr} (hwf : i.wellFormed = true) {v : Word}
    (h : encode i &&& ~~~i.unreadBits = v &&& ~~~i.unreadBits) : decode v = i := by
  cases i with
  | addReg =>
    obtain ⟨x, rfl⟩ := agree_opr_iff.1 h
    exact decode_addReg rfl
  | andReg =>
    obtain ⟨x, rfl⟩ := agree_opr_iff.1 h
    exact decode_andReg rfl
  | not =>
    obtain ⟨x, rfl⟩ := agree_not_iff.1 h
    exact decode_not rfl
  | jsrr =>
    obtain ⟨x, y, rfl⟩ := agree_jsrr_iff.1 h
    exact decode_jsrr rfl
  | jmp =>
    obtain ⟨x, y, rfl⟩ := agree_jmp_iff.1 h
    exact decode_jmp rfl
  | trap =>
    obtain ⟨x, rfl⟩ := agree_trap_iff.1 h
    exact decode_trap rfl
  | _ =>
    obtain rfl := agree_zero_iff.1 h
    exact decode_encode hwf

/-- The decoder gives well-formed instructions only: an undefined row carries the word, which has its opcode (R72). -/
theorem decode_wellFormed (w : Word) : (decode w).wellFormed = true := by
  have hopcode := decode_row_opcode w
  cases h : decode w with
  | undefined1000 ir =>
    obtain ⟨-, rfl⟩ := (decode_undefined_iff w ir).1 (.inl h)
    exact beq_iff_eq.2 ((opcodeOf_eq_iff ir 0b1000#4).2 (by simpa [h, Instr.row] using hopcode.symm))
  | undefined1101 ir =>
    obtain ⟨-, rfl⟩ := (decode_undefined_iff w ir).1 (.inr h)
    exact beq_iff_eq.2 ((opcodeOf_eq_iff ir 0b1101#4).2 (by simpa [h, Instr.row] using hopcode.symm))
  | _ => rfl

/-- Settles O5: with its own fields put back, a word is the encoded one, or differs from it in unread bits. One goal for
each opcode, from 0 to 15. -/
theorem encodeDecodeKeepsReadBits : Obligations.EncodeDecodeKeepsReadBits := by
  intro w
  have hlt : w.toNat / 4096 < 16 := by omega
  rw [decode_eq_decodeByNumber]
  unfold decodeByNumber
  generalize hq : w.toNat / 4096 = q at hlt
  interval_cases q
  · exact agree_zero_iff.2 (eq_br_iff.2 ⟨hq, rfl, rfl, rfl, rfl⟩).symm
  · cases hm : w.getLsbD 5
    · exact agree_opr_iff.2 ⟨_, (eq_opr_iff.2 ⟨hq, rfl, rfl, hm, rfl, rfl⟩).symm⟩
    · exact agree_zero_iff.2 (eq_opi_iff.2 ⟨hq, rfl, rfl, hm, rfl⟩).symm
  · exact agree_zero_iff.2 (eq_pcr_iff.2 ⟨hq, rfl, rfl⟩).symm
  · exact agree_zero_iff.2 (eq_pcr_iff.2 ⟨hq, rfl, rfl⟩).symm
  · cases hm : w.getLsbD 11
    · exact agree_jsrr_iff.2 ⟨_, _, (eq_jsrr_iff.2 ⟨hq, hm, rfl, rfl, rfl⟩).symm⟩
    · exact agree_zero_iff.2 (eq_jsr_iff.2 ⟨hq, hm, rfl⟩).symm
  · cases hm : w.getLsbD 5
    · exact agree_opr_iff.2 ⟨_, (eq_opr_iff.2 ⟨hq, rfl, rfl, hm, rfl, rfl⟩).symm⟩
    · exact agree_zero_iff.2 (eq_opi_iff.2 ⟨hq, rfl, rfl, hm, rfl⟩).symm
  · exact agree_zero_iff.2 (eq_base_iff.2 ⟨hq, rfl, rfl, rfl⟩).symm
  · exact agree_zero_iff.2 (eq_base_iff.2 ⟨hq, rfl, rfl, rfl⟩).symm
  · exact rfl
  · exact agree_not_iff.2 ⟨_, (eq_base_iff.2 ⟨hq, rfl, rfl, rfl⟩).symm⟩
  · exact agree_zero_iff.2 (eq_pcr_iff.2 ⟨hq, rfl, rfl⟩).symm
  · exact agree_zero_iff.2 (eq_pcr_iff.2 ⟨hq, rfl, rfl⟩).symm
  · exact agree_jmp_iff.2 ⟨_, _, (eq_base_iff.2 ⟨hq, rfl, rfl, rfl⟩).symm⟩
  · exact rfl
  · exact agree_zero_iff.2 (eq_pcr_iff.2 ⟨hq, rfl, rfl⟩).symm
  · exact agree_trap_iff.2 ⟨_, (eq_trap_iff.2 ⟨hq, rfl⟩).symm⟩

/-- Settles O8: a word that agrees with w agrees with w's instruction as it is encoded. -/
theorem unreadBitsAreIgnored : Obligations.UnreadBitsAreIgnored :=
  fun w _ h => decode_of_agree (decode_wellFormed w) ((encodeDecodeKeepsReadBits w).trans h)

/-! ### The rows of the opcode table (R74) -/

theorem opr_and_F020 {o : BitVec 4} {d a : Reg} {m : BitVec 1} {x : BitVec 2} {b : Reg} :
    (o ++ d ++ a ++ m ++ x ++ b) &&& 0xF020#16 = BitVec.ofNat 16 (o.toNat * 4096 + m.toNat * 32) := by
  rw [and_F020, toNat_opr]
  exact congrArg (BitVec.ofNat 16) (by omega)

theorem opi_and_F020 {o : BitVec 4} {d a : Reg} {m : BitVec 1} {i : BitVec 5} :
    (o ++ d ++ a ++ m ++ i) &&& 0xF020#16 = BitVec.ofNat 16 (o.toNat * 4096 + m.toNat * 32) := by
  rw [and_F020, toNat_opi]
  exact congrArg (BitVec.ofNat 16) (by omega)

theorem jsr_and_F800 {o : BitVec 4} {m : BitVec 1} {i : BitVec 11} :
    (o ++ m ++ i) &&& 0xF800#16 = BitVec.ofNat 16 (o.toNat * 4096 + m.toNat * 2048) := by
  rw [and_F800, toNat_jsr]
  exact congrArg (BitVec.ofNat 16) (by omega)

theorem jsrr_and_F800 {o : BitVec 4} {m : BitVec 1} {x : BitVec 2} {a : Reg} {y : BitVec 6} :
    (o ++ m ++ x ++ a ++ y) &&& 0xF800#16 = BitVec.ofNat 16 (o.toNat * 4096 + m.toNat * 2048) := by
  rw [and_F800, toNat_jsrr]
  exact congrArg (BitVec.ofNat 16) (by omega)

theorem opcode_encode {i : Instr} (hwf : i.wellFormed = true) :
    (encode i).toNat / 4096 = i.row.pattern.toNat / 4096 := by
  rw [← decode_row_opcode, decode_encode hwf]

theorem encode_and_mask {i : Instr} (hwf : i.wellFormed = true) : encode i &&& i.row.mask = i.row.pattern := by
  cases i with
  | addReg | andReg => exact opr_and_F020
  | addImm | andImm => exact opi_and_F020
  | jsr => exact jsr_and_F800
  | jsrr => exact jsrr_and_F800
  | _ =>
    show _ &&& 0xF000#16 = _
    rw [and_F000, opcode_encode hwf]
    simp [Instr.row]

/-- No unread bit selects a row. -/
theorem mask_and_not_unreadBits (i : Instr) : i.row.mask &&& ~~~i.unreadBits = i.row.mask := by
  have hnone : ∀ m : Word, m &&& ~~~0#16 = m := fun m => by rw [BitVec.not_zero, BitVec.and_allOnes]
  cases i with
  | addReg | andReg => exact (by decide : 0xF020#16 &&& ~~~0x0018#16 = 0xF020#16)
  | jsrr => exact (by decide : 0xF800#16 &&& ~~~0x063F#16 = 0xF800#16)
  | not => exact (by decide : 0xF000#16 &&& ~~~0x003F#16 = 0xF000#16)
  | jmp => exact (by decide : 0xF000#16 &&& ~~~0x0E3F#16 = 0xF000#16)
  | trap => exact (by decide : 0xF000#16 &&& ~~~0x0FFF#16 = 0xF000#16)
  | _ => exact hnone _

theorem and_eq_of_agree {n : Nat} {w v u m : BitVec n} (h : w &&& ~~~u = v &&& ~~~u) (hm : m &&& ~~~u = m) :
    w &&& m = v &&& m := by
  rw [← hm, BitVec.and_comm m, ← BitVec.and_assoc, h, BitVec.and_assoc]

theorem matches_decode_row (w : Word) : w &&& (decode w).row.mask = (decode w).row.pattern := by
  rw [← and_eq_of_agree (encodeDecodeKeepsReadBits w) (mask_and_not_unreadBits _)]
  exact encode_and_mask (decode_wellFormed w)

theorem row_mem_opcodeTable (i : Instr) : i.row ∈ opcodeTable := by
  cases i <;> simp [Instr.row, opcodeTable]

/-- Two different rows of the table differ in a bit that both of them test. -/
theorem row_eq_of_patterns_agree : ∀ r ∈ opcodeTable, ∀ r' ∈ opcodeTable,
    r.pattern &&& r'.mask = r'.pattern &&& r.mask → r = r' := by
  decide

theorem row_eq_of_matches {w : Word} {r r' : Row} (hr : r ∈ opcodeTable) (hr' : r' ∈ opcodeTable)
    (h : w &&& r.mask = r.pattern) (h' : w &&& r'.mask = r'.pattern) : r = r' := by
  refine row_eq_of_patterns_agree r hr r' hr' ?_
  rw [← h, ← h', BitVec.and_assoc, BitVec.and_assoc, BitVec.and_comm r.mask]

/-- Settles O7: a word matches the row it decodes to, and two rows that match one word are one row. -/
theorem everyWordMatchesExactlyOneRow : Obligations.EveryWordMatchesExactlyOneRow := by
  refine ⟨rfl, by decide, fun w => ?_⟩
  have hmem := row_mem_opcodeTable (decode w)
  refine ⟨hmem, fun r hr => ⟨fun h => row_eq_of_matches hr hmem h (matches_decode_row w), ?_⟩⟩
  rintro rfl
  exact matches_decode_row w

/-! ### The number of an encoded word (R83) -/

/-- A signed number taken to its field by mod is the field's number. -/
theorem toInt_emod_two_pow {n : Nat} (x : BitVec n) : x.toInt % (2 ^ n : Nat) = x.toNat := by
  rw [BitVec.toInt_eq_toNat_bmod, Int.bmod_emod]
  exact_mod_cast Nat.mod_eq_of_lt x.isLt

theorem natCast_toNat_pcr (o : BitVec 4) (d : Reg) (i : BitVec 9) :
    ((BitVec.toNat (w := 16) (o ++ d ++ i) : Nat) : Int) = o.toNat * 4096 + d.toNat * 512 + i.toInt % 512 := by
  have hi : i.toInt % 512 = i.toNat := toInt_emod_two_pow i
  rw [toNat_pcr, hi]
  norm_cast

theorem natCast_toNat_opi (o : BitVec 4) (d a : Reg) (i : BitVec 5) :
    ((BitVec.toNat (w := 16) (o ++ d ++ a ++ 0b1#1 ++ i) : Nat) : Int) =
      o.toNat * 4096 + d.toNat * 512 + a.toNat * 64 + (0b100000 + i.toInt % 32) := by
  have hi : i.toInt % 32 = i.toNat := toInt_emod_two_pow i
  rw [toNat_opi, hi, ← add_assoc]
  rfl

theorem natCast_toNat_base (o : BitVec 4) (d a : Reg) (i : BitVec 6) :
    ((BitVec.toNat (w := 16) (o ++ d ++ a ++ i) : Nat) : Int) =
      o.toNat * 4096 + d.toNat * 512 + a.toNat * 64 + i.toInt % 64 := by
  have hi : i.toInt % 64 = i.toNat := toInt_emod_two_pow i
  rw [toNat_base, hi]
  rfl

theorem natCast_toNat_br (n z p : Bool) (i : BitVec 9) :
    ((encode (.br n z p i)).toNat : Int) =
      0 * 4096 + (n.toNat * 4 + z.toNat * 2 + p.toNat) * 512 + i.toInt % 512 := by
  have hi : i.toInt % 512 = i.toNat := toInt_emod_two_pow i
  have hw : (encode (.br n z p i)).toNat =
      0 * 4096 + (bit n).toNat * 2048 + (bit z).toNat * 1024 + (bit p).toNat * 512 + i.toNat :=
    toNat_br 0b0000#4 _ _ _ i
  rw [toNat_bit, toNat_bit, toNat_bit] at hw
  omega

theorem natCast_toNat_jsr (i : BitVec 11) : ((encode (.jsr i)).toNat : Int) = 0x4800 + i.toInt % 2048 := by
  have hi : i.toInt % 2048 = i.toNat := toInt_emod_two_pow i
  have hw : (encode (.jsr i)).toNat = 4 * 4096 + 1 * 2048 + i.toNat := toNat_jsr 0b0100#4 0b1#1 i
  omega

/-- Settles O6: every row is the number of its format. -/
theorem encodedWordsHaveTheSpecNumbers : Obligations.EncodedWordsHaveTheSpecNumbers := by
  refine ⟨fun dr sr1 sr2 => ⟨?_, ?_⟩, fun dr sr1 imm5 => ⟨?_, ?_⟩, fun dr sr => ?_, fun r base off6 => ⟨?_, ?_⟩,
    fun base => ⟨?_, ?_⟩, fun r off9 => ⟨?_, ?_, ?_, ?_, ?_⟩, natCast_toNat_br, natCast_toNat_jsr, rfl⟩
  · exact toNat_opr 0b0001#4 dr sr1 0b0#1 0b00#2 sr2
  · exact toNat_opr 0b0101#4 dr sr1 0b0#1 0b00#2 sr2
  · exact natCast_toNat_opi 0b0001#4 dr sr1 imm5
  · exact natCast_toNat_opi 0b0101#4 dr sr1 imm5
  · exact toNat_base 0b1001#4 dr sr 0b111111#6
  · exact natCast_toNat_base 0b0110#4 r base off6
  · exact natCast_toNat_base 0b0111#4 r base off6
  · exact (toNat_jsrr 0b0100#4 0b0#1 0b00#2 base 0b000000#6).trans (by simp)
  · exact (toNat_base 0b1100#4 0b000#3 base 0b000000#6).trans (by simp)
  · exact natCast_toNat_pcr 0b0010#4 r off9
  · exact natCast_toNat_pcr 0b0011#4 r off9
  · exact natCast_toNat_pcr 0b1010#4 r off9
  · exact natCast_toNat_pcr 0b1011#4 r off9
  · exact natCast_toNat_pcr 0b1110#4 r off9

end Sys2Proof.Machine
end

/-! ## Step and dispatch: proofs about 40_step_and_dispatch.md -/

section
namespace Sys2Proof.Machine

open Sys2Proof.Safety

/-! ### One step (R90 to R94) -/

/-- Settles O39: each of the three outcomes meets its own clause, and its opcode excludes the other two. -/
theorem stepHasOneOfThreeOutcomes : Obligations.StepHasOneOfThreeOutcomes := by
  intro s hrun
  obtain ⟨t, hstep, ⟨htrap, rfl⟩ | ⟨hundef, rfl⟩ | ⟨htrap, hundef, ⟨hkept, hrecord⟩, -⟩⟩ := step_running_cases hrun
  · exact ⟨_, hstep, fun _ => ⟨rfl, rfl, rfl, fun _ _ => rfl, fun _ => rfl, rfl, rfl, rfl⟩,
      fun h => absurd htrap (opcodeOf_ne_trap h), fun h => absurd htrap h⟩
  · exact ⟨_, hstep, fun h => absurd h (opcodeOf_ne_trap hundef),
      fun _ => ⟨rfl, rfl, rfl, fun _ _ => rfl, fun _ => rfl, rfl, rfl, rfl⟩, fun _ h => absurd hundef h⟩
  · exact ⟨t, hstep, fun h => absurd h htrap, fun h => absurd h hundef, fun _ _ => ⟨hkept.trans hrun, hrecord⟩⟩

/-- Settles O1: the decoder gives well-formed instructions only, and a running block executes what it decodes. -/
theorem stepRunsTheDecodedInstruction : Obligations.StepRunsTheDecodedInstruction :=
  fun s hrun => ⟨decode_wellFormed (s.memRead s.pc), step_of_running hrun⟩

/-! ### Runs (R96, R98) -/

/-- Settles O40, by induction on the number of steps: each of them answers the same state. -/
theorem stoppedBlockNeverChanges : Obligations.StoppedBlockNeverChanges := by
  intro k s hstopped
  induction k with
  | zero => exact reaches_zero.2 rfl
  | succ k ih => exact reaches_succ.2 ⟨s, step_of_stopped hstopped, ih⟩

/-- The running block stands at a word of a given kind. -/
def State.RunsAt (P : Word → Prop) (s : State) : Prop := s.run = .running ∧ P (s.memRead s.pc)

/-- One of the first k steps from a state fetches a word of a given kind. -/
def FetchesWithin (P : Word → Prop) (k : Nat) (s : State) : Prop := ∃ j u, j < k ∧ Reaches j s u ∧ u.RunsAt P

theorem not_fetchesWithin_zero (P : Word → Prop) (s : State) : ¬ FetchesWithin P 0 s :=
  fun ⟨j, _, hj, _⟩ => Nat.not_lt_zero j hj

/-- The fetches of k + 1 steps are the first one and those of the k steps after it. -/
theorem fetchesWithin_succ {P : Word → Prop} {k : Nat} {s u : State} (hstep : step s = .next u) :
    FetchesWithin P (k + 1) s ↔ s.RunsAt P ∨ FetchesWithin P k u := by
  constructor
  · rintro ⟨_ | j, v, hj, hreach, hat⟩
    · exact .inl (reaches_zero.1 hreach ▸ hat)
    · obtain ⟨u', hstep', hrest⟩ := reaches_succ.1 hreach
      obtain rfl : u = u' := Host.Outcome.next.inj (hstep.symm.trans hstep')
      exact .inr ⟨j, v, Nat.lt_of_succ_lt_succ hj, hrest, hat⟩
  · rintro (hat | ⟨j, v, hj, hreach, hat⟩)
    · exact ⟨0, s, k.succ_pos, reaches_zero.2 rfl, hat⟩
    · exact ⟨j + 1, v, Nat.succ_lt_succ hj, reaches_succ.2 ⟨u, hstep, hreach⟩, hat⟩

/-- The block is stopped after a step if it was before it, or if the step is at a word that stops it so (R94). -/
theorem run_of_step_iff {s t : State} (hstep : step s = .next t) :
    (t.run = .halted ↔ s.run = .halted ∨ s.RunsAt (opcodeOf · = 0b1111#4)) ∧
    (t.run = .faulted ↔ s.run = .faulted ∨ s.RunsAt undefinedOpcode) := by
  unfold State.RunsAt
  by_cases hrun : s.run = .running
  · obtain ⟨u, hu, houtcome⟩ := step_running_cases hrun
    obtain rfl : u = t := Host.Outcome.next.inj (hu.symm.trans hstep)
    obtain ⟨htrap, rfl⟩ | ⟨hundef, rfl⟩ | ⟨htrap, hundef, ⟨hkept, -⟩, -⟩ := houtcome
    · have hdefined : ¬ undefinedOpcode (s.memRead s.pc) := fun h => opcodeOf_ne_trap h htrap
      simp [hrun, htrap, hdefined]
    · simp [hrun, hundef, opcodeOf_ne_trap hundef]
    · simp [hkept, hrun, htrap, hundef]
  · obtain rfl : s = t := Host.Outcome.next.inj ((step_of_stopped hrun).symm.trans hstep)
    simp [hrun]

/-- What a single step says of entering a run state carries over to every run. -/
theorem run_of_reaches_iff {r : RunState} {P : Word → Prop}
    (hentry : ∀ s t, step s = .next t → (t.run = r ↔ s.run = r ∨ s.RunsAt P)) {k : Nat} {s t : State}
    (hreach : Reaches k s t) : t.run = r ↔ s.run = r ∨ FetchesWithin P k s := by
  induction k generalizing s with
  | zero =>
    obtain rfl := reaches_zero.1 hreach
    simp [not_fetchesWithin_zero]
  | succ k ih =>
    obtain ⟨u, hstep, hrest⟩ := reaches_succ.1 hreach
    rw [ih hrest, hentry s u hstep, fetchesWithin_succ hstep, or_assoc]

/-- Settles O42: a run that starts running has stopped exactly by one of its own fetches. -/
theorem runEndsExactlyAtAStoppingWord : Obligations.RunEndsExactlyAtAStoppingWord := by
  intro k s t hrun hreach
  have hhalted := run_of_reaches_iff (fun _ _ hstep => (run_of_step_iff hstep).1) hreach
  have hfaulted := run_of_reaches_iff (fun _ _ hstep => (run_of_step_iff hstep).2) hreach
  rw [hrun] at hhalted hfaulted
  exact ⟨hhalted.trans (or_iff_right nofun), hfaulted.trans (or_iff_right nofun)⟩

end Sys2Proof.Machine
end

/-! ## Operate: proofs about 41_operate.md -/

section
namespace Sys2Proof.Machine

open Sys2Proof.Safety

/-- The effect of an instruction that ends in writeResult, as the statements put it (R106, R117). -/
theorem effect_of_exec_writeResult {i : Instr} {s : State} {dr : Reg} {v : Word}
    (hexec : exec i s = .next (s.writeResult dr v)) :
    ∃ t, exec i s = .next t ∧ t.pc = wrap (s.pc.toNat + 1) ∧ t.readReg dr = v ∧
      flagSays t.cc (t.readReg dr) ∧ regsKept s t [dr] ∧ memKept s t ∧ controlKept s t := by
  obtain ⟨hpc, hread, hflag, hkept⟩ := s.writeResult_spec dr v
  exact ⟨_, hexec, hpc.trans s.pcNext_eq, hread, hread.symm ▸ hflag, hkept⟩

/-- A sum of words as the wrapped sum of integers (R9). -/
theorem add_eq_wrap (a b : Word) : a + b = wrap (a.toNat + b.toNat) := by
  rw [wrap_add_natCast, BitVec.ofNat_toNat, BitVec.setWidth_eq]

/-- A sign-extended field is the 16-bit pattern of its value (R7). -/
theorem sext_eq_wrap {N : Nat} (f : BitVec N) : sext f = wrap f.toInt := rfl

/-- Settles O18: the result ADD writes is the wrapped sum, whatever stands in bits [4:3]. -/
theorem addRegisterWritesTheWrappedSum : Obligations.AddRegisterWritesTheWrappedSum := by
  intro dr sr1 sr2 x s
  obtain ⟨t, hexec, hpc, hread, hkept⟩ := effect_of_exec_writeResult (i := .addReg dr sr1 sr2) (s := s) rfl
  exact ⟨decode_addReg rfl, t, hexec, hpc, hread.trans (add_eq_wrap _ _), hkept⟩

/-- Settles O19: the sum with the sign-extended immediate is the wrapped sum with its signed value. -/
theorem addImmediateWritesTheWrappedSum : Obligations.AddImmediateWritesTheWrappedSum := by
  intro dr sr1 imm5 s
  obtain ⟨t, hexec, hpc, hread, hkept⟩ := effect_of_exec_writeResult (i := .addImm dr sr1 imm5) (s := s) rfl
  exact ⟨decode_addImm rfl, t, hexec, hpc, hread.trans (add_sext_eq _ _), hkept⟩

/-- Settles O20: the result AND writes has the ands of the sources' bits, whatever stands in bits [4:3]. -/
theorem andRegisterIsBitwise : Obligations.AndRegisterIsBitwise := by
  intro dr sr1 sr2 x s
  obtain ⟨t, hexec, hpc, hread, hkept⟩ := effect_of_exec_writeResult (i := .andReg dr sr1 sr2) (s := s) rfl
  refine ⟨decode_andReg rfl, t, hexec, hpc, fun k => ?_, hkept⟩
  rw [hread, BitVec.getLsbD_and]

/-- Settles O21: the mask is the sign-extended immediate, the 16-bit pattern of its signed value. -/
theorem andImmediateIsBitwise : Obligations.AndImmediateIsBitwise := by
  intro dr sr1 imm5 s
  obtain ⟨t, hexec, hpc, hread, hkept⟩ := effect_of_exec_writeResult (i := .andImm dr sr1 imm5) (s := s) rfl
  refine ⟨decode_andImm rfl, t, hexec, hpc, fun k => ?_, hkept⟩
  rw [hread, sext_eq_wrap, BitVec.getLsbD_and]

/-- Settles O22: the complement of a word is 0xFFFF minus it, whatever stands in the low six bits. -/
theorem notWritesTheComplement : Obligations.NotWritesTheComplement := by
  intro dr sr x s
  obtain ⟨t, hexec, hpc, hread, hkept⟩ := effect_of_exec_writeResult (i := .not dr sr) (s := s) rfl
  refine ⟨decode_not rfl, t, hexec, hpc, ?_, hkept⟩
  rw [hread, BitVec.toNat_not]

end Sys2Proof.Machine
end

/-! ## Load and store: proofs about 42_load_store.md -/

section
namespace Sys2Proof.Machine

open Sys2Proof.Safety

/-- The pointer of LDI and STI is the cell at the wrapped sum of integers (R114, R115). -/
theorem State.pointer_eq (s : State) (off9 : BitVec 9) :
    s.pointer off9 = s.memRead (wrap (s.pc.toNat + 1 + off9.toInt)) :=
  congrArg s.memRead (s.pcRelative_eq off9)

/-- The effect of an instruction that ends in storeResult, as the statements put it (R117). -/
theorem effect_of_exec_storeResult {i : Instr} {s : State} {a v : Word}
    (hexec : exec i s = .next (s.storeResult a v)) :
    ∃ t, exec i s = .next t ∧ t.pc = wrap (s.pc.toNat + 1) ∧ t.memRead a = v ∧
      memKeptBut s t a ∧ regsKept s t [] ∧ t.cc = s.cc ∧ controlKept s t := by
  obtain ⟨hpc, hkept⟩ := s.storeResult_spec a v
  exact ⟨_, hexec, hpc.trans s.pcNext_eq, hkept⟩

/-! ### Loads: the loaded cell is named by its integer address -/

/-- Settles O23: LD ends in writeResult with the cell at the PC-relative address. -/
theorem ldLoadsThePcRelativeCell : Obligations.LdLoadsThePcRelativeCell := by
  intro dr off9 s
  obtain ⟨t, hexec, hpc, hread, hkept⟩ := effect_of_exec_writeResult (i := .ld dr off9) (s := s) rfl
  exact ⟨decode_ld rfl, t, hexec, hpc, hread.trans (congrArg s.memRead (s.pcRelative_eq off9)), hkept⟩

/-- Settles O25: the address is computed in the state before the write, so DR may be BaseR. -/
theorem ldrLoadsTheBaseOffsetCell : Obligations.LdrLoadsTheBaseOffsetCell := by
  intro dr base off6 s
  obtain ⟨t, hexec, hpc, hread, hkept⟩ := effect_of_exec_writeResult (i := .ldr dr base off6) (s := s) rfl
  exact ⟨decode_ldr rfl, t, hexec, hpc, hread.trans (congrArg s.memRead (s.baseOffset_eq base off6)), hkept⟩

/-- Settles O27: the value written, and so the flag's, is the second read's. -/
theorem ldiLoadsThroughThePointer : Obligations.LdiLoadsThroughThePointer := by
  intro dr off9 s
  obtain ⟨t, hexec, hpc, hread, hkept⟩ := effect_of_exec_writeResult (i := .ldi dr off9) (s := s) rfl
  exact ⟨decode_ldi rfl, t, hexec, hpc, hread.trans (congrArg s.memRead (s.pointer_eq off9)), hkept⟩

/-! ### Stores: each ends in storeResult at its own address -/

/-- Settles O24: ST ends in storeResult at the PC-relative address. -/
theorem stStoresToThePcRelativeCell : Obligations.StStoresToThePcRelativeCell :=
  fun sr off9 s => ⟨decode_st sr off9, s.pcRelative_eq off9, effect_of_exec_storeResult rfl⟩

/-- Settles O26: STR ends in storeResult at the base-plus-offset address. -/
theorem strStoresToTheBaseOffsetCell : Obligations.StrStoresToTheBaseOffsetCell :=
  fun _ base off6 s => ⟨decode_str rfl, s.baseOffset_eq base off6, effect_of_exec_storeResult rfl⟩

/-- Settles O28: STI ends in storeResult at the pointer read before the write. -/
theorem stiStoresThroughThePointer : Obligations.StiStoresThroughThePointer :=
  fun _ off9 s => ⟨decode_sti rfl, s.pointer_eq off9, effect_of_exec_storeResult rfl⟩

/-! ### LEA: a register write with no access and no flag -/

/-- Settles O29: LEA writes the PC-relative address to DR after advancing pc, and nothing else. -/
theorem leaWritesTheAddressOnly : Obligations.LeaWritesTheAddressOnly := by
  intro dr off9 s
  have hread : (s.advance.writeReg dr (s.pcRelative off9)).readReg dr = wrap (s.pc.toNat + 1 + off9.toInt) :=
    (s.advance.readReg_writeReg_same dr _).trans (s.pcRelative_eq off9)
  have hregs : regsKept s (s.advance.writeReg dr (s.pcRelative off9)) [dr] := s.advance.regsKept_writeReg dr _
  exact ⟨decode_lea rfl, _, rfl, s.pcNext_eq, hread, rfl, hregs, fun _ => rfl, rfl, rfl, rfl, rfl⟩

end Sys2Proof.Machine
end

/-! ## Control transfer: proofs about 43_control.md -/

section
namespace Sys2Proof.Machine

open Sys2Proof.Safety

/-! ### Jumps: BR, JMP and RET -/

/-- All of State.jumpTo: pc and nothing else. -/
theorem State.jumpTo_spec (s : State) (target : Word) :
    (s.jumpTo target).pc = target ∧ (s.jumpTo target).cc = s.cc ∧ regsKept s (s.jumpTo target) [] ∧
    memKept s (s.jumpTo target) ∧ controlKept s (s.jumpTo target) :=
  ⟨rfl, rfl, fun _ _ => rfl, fun _ => rfl, rfl, rfl, rfl, rfl⟩

/-- BR only jumps, taken or not: an advance is a jump to the next address (R120). -/
theorem exec_br_eq_jumpTo (n z p : Bool) (off9 : BitVec 9) (s : State) :
    ∃ target, exec (.br n z p off9) s = .next (s.jumpTo target) := by
  by_cases htaken : branchTaken n z p s.cc = true
  · exact ⟨s.pcRelative off9, exec_br_of_taken off9 htaken⟩
  · exact ⟨s.pcNext, exec_br_of_not_taken off9 htaken⟩

/-- Settles O30: the target is R24's row for BR (`pc_of_exec`), and both branches keep all the rest. -/
theorem brBranchesOnItsConditionBits : Obligations.BrBranchesOnItsConditionBits := by
  intro n z p off9 s
  obtain ⟨target, hexec⟩ := exec_br_eq_jumpTo n z p off9 s
  obtain ⟨-, hkept⟩ := s.jumpTo_spec target
  exact ⟨decode_br rfl, _, hexec, pc_of_exec hexec, hkept⟩

/-- Settles O31: JMP is a jump to the base register's value. -/
theorem jmpGoesToTheRegister : Obligations.JmpGoesToTheRegister :=
  fun _ base _ s => ⟨decode_jmp rfl, _, rfl, s.jumpTo_spec (s.readReg base)⟩

/-- Settles O32: RET is the canonical word of JMP with BaseR = 7, and JMP keeps every register. -/
theorem retIsJmpThroughTheLinkRegister : Obligations.RetIsJmpThroughTheLinkRegister := by
  have hencode : encode (.jmp 7) = 0xC1C0 := rfl
  refine ⟨hencode ▸ decode_encode rfl, hencode, fun s => ?_⟩
  obtain ⟨hpc, -, hregs, -⟩ := s.jumpTo_spec (s.readReg 7)
  exact ⟨_, rfl, hpc, hregs 7 List.not_mem_nil⟩

/-! ### Calls: JSR and JSRR -/

/-- The effect of an instruction that ends in State.call, as the statements put it (R123, R124). -/
theorem effect_of_exec_call {i : Instr} {s : State} {target : Word} (hexec : exec i s = .next (s.call target)) :
    ∃ t, exec i s = .next t ∧ t.pc = target ∧ t.readReg 7 = wrap (s.pc.toNat + 1) ∧ t.cc = s.cc ∧
      regsKept s t [7] ∧ memKept s t ∧ controlKept s t := by
  obtain ⟨hpc, hlink, hregs, hmem, hcc, hcontrol⟩ := s.call_spec target
  exact ⟨_, hexec, hpc, hlink.trans s.pcNext_eq, hcc, hregs, hmem, hcontrol⟩

/-- Settles O33: JSR calls the PC-relative address, the wrapped sum of integers. -/
theorem jsrCallsThePcRelativeTarget : Obligations.JsrCallsThePcRelativeTarget := by
  intro off11 s
  obtain ⟨t, hexec, hpc, hkept⟩ := effect_of_exec_call (i := .jsr off11) (s := s) rfl
  exact ⟨decode_jsr rfl, t, hexec, hpc.trans (s.pcRelative_eq off11), hkept⟩

/-- Settles O34: JSRR calls the base register's value in the state before the link is written. -/
theorem jsrrCallsTheRegisterTarget : Obligations.JsrrCallsTheRegisterTarget :=
  fun _ _ _ _ => ⟨decode_jsrr rfl, effect_of_exec_call rfl⟩

end Sys2Proof.Machine
end

/-! ## Trap and the undefined opcodes: proofs about 44_trap_and_reserved.md -/

section
namespace Sys2Proof.Machine

open Sys2Proof.Safety

/-! ### TRAP (R130) -/

/-- All of State.halt: the run state and nothing else. -/
theorem State.halt_spec (s : State) :
    s.halt.run = .halted ∧ s.halt.pc = s.pc ∧ s.halt.cc = s.cc ∧ regsKept s s.halt [] ∧ memKept s s.halt ∧
    recordKept s s.halt :=
  ⟨rfl, rfl, rfl, fun _ _ => rfl, fun _ => rfl, rfl, rfl, rfl⟩

/-- The first fetch of a run reads the first word of a one-word image (R33, R162). -/
theorem memRead_pc_ofImage_singleton (start w : Word) :
    (State.ofImage ⟨start, [w]⟩).memRead (State.ofImage ⟨start, [w]⟩).pc = w :=
  Memory.read_write_same [] start w

/-- The run of a one-word image begins by executing that word. -/
theorem step_ofImage_singleton (start w : Word) :
    step (State.ofImage ⟨start, [w]⟩) = exec (decode w) (State.ofImage ⟨start, [w]⟩) := by
  have hrun : (State.ofImage ⟨start, [w]⟩).run = .running := rfl
  rw [step_of_running hrun, memRead_pc_ofImage_singleton]

/-- Settles O35: TRAP only halts, and it is what a run of its one-word image first executes. -/
theorem trapHaltsAndChangesNothingElse : Obligations.TrapHaltsAndChangesNothingElse := by
  intro x
  have hdecode : decode (0b1111#4 ++ x) = .trap := decode_trap rfl
  refine ⟨hdecode, fun s => ⟨s.halt, rfl, s.halt_spec⟩, fun start => ?_⟩
  have hstep := step_ofImage_singleton start (0b1111#4 ++ x)
  rw [hdecode] at hstep
  obtain ⟨hrun, -, -, hregs, -⟩ := (State.ofImage ⟨start, [0b1111#4 ++ x]⟩).halt_spec
  exact ⟨_, hstep, hrun, fun r => (hregs r List.not_mem_nil).trans (readReg_ofImage _ r)⟩

/-! ### The undefined opcodes (R131, R132, R141) -/

/-- A word's first four bits are its opcode. -/
theorem opcodeOf_append (o : BitVec 4) (x : BitVec 12) : opcodeOf (o ++ x) = o :=
  (opcodeOf_eq_iff _ o).2 (eq_trap_iff.1 rfl).1

/-- The effect of an instruction that raises the decode error, as the statements put it (R141). -/
theorem effect_of_exec_raiseDecodeError {i : Instr} {s : State} {ir : Word}
    (hexec : exec i s = .next (s.raiseDecodeError ir)) :
    ∃ t, exec i s = .next t ∧ t.faultCause = .decodeError ∧ t.faultPc = s.pc ∧ t.faultIr = ir ∧ t.run = .faulted ∧
      t.pc = s.pc ∧ t.cc = s.cc ∧ regsKept s t [] ∧ memKept s t :=
  ⟨_, hexec, rfl, rfl, rfl, rfl, rfl, rfl, fun _ _ => rfl, fun _ => rfl⟩

/-- Settles O36: opcode 1000 decodes to the row that carries the word, and that row raises the decode error. -/
theorem opcode1000RaisesDecodeError : Obligations.Opcode1000RaisesDecodeError :=
  fun x _ => ⟨decode_undefined1000 (opcodeOf_append 0b1000#4 x), effect_of_exec_raiseDecodeError rfl⟩

/-- Settles O37: opcode 1101 decodes to the row that carries the word, and that row raises the decode error. -/
theorem opcode1101RaisesDecodeError : Obligations.Opcode1101RaisesDecodeError :=
  fun x _ => ⟨decode_undefined1101 (opcodeOf_append 0b1101#4 x), effect_of_exec_raiseDecodeError rfl⟩

end Sys2Proof.Machine
end

/-! ## Exceptions: proofs about 60_exceptions.md -/

section
namespace Sys2Proof.Machine

open Sys2Proof.Safety

/-- Either undefined opcode's row takes the decode error with the whole word (R141). -/
theorem exec_decode_of_undefinedOpcode {w : Word} (hundef : undefinedOpcode w) (s : State) :
    exec (decode w) s = .next (s.raiseDecodeError w) := by
  obtain h1000 | h1101 := hundef
  · rw [decode_undefined1000 h1000]
    rfl
  · rw [decode_undefined1101 h1101]
    rfl

/-- Settles O38: the running block executes the word at pc, and an undefined one only takes the decode error. -/
theorem decodeErrorEntryIsPrecise : Obligations.DecodeErrorEntryIsPrecise := by
  intro s hrun hundef
  rw [step_of_running hrun]
  exact effect_of_exec_raiseDecodeError (exec_decode_of_undefinedOpcode hundef s)

/-- Settles O41, by induction on the number of steps: every state has a next one. -/
theorem noStepIsEverStopped : Obligations.NoStepIsEverStopped := by
  intro k
  induction k with
  | zero => exact fun s => ⟨s, reaches_zero.2 rfl⟩
  | succ k ih =>
    intro s
    obtain ⟨u, hstep⟩ := step_next s
    obtain ⟨t, hreach⟩ := ih u
    exact ⟨t, reaches_succ.2 ⟨u, hstep, hreach⟩⟩

end Sys2Proof.Machine
end

/-! ## Reset and hazards: proofs about 70_reset_and_hazards.md -/

section
namespace Sys2Proof.Machine

/-! ### The launch (R165, R166) -/

/-- The host has no move while the block runs (R166; entry 13). -/
theorem launch_of_running (img : Image) {s : State} (hrun : s.run = .running) :
    launch img s = .fault .launchWhileRunning := by
  rw [launch, hrun]

/-- From either stopped state the launch gives the image's start state, in which nothing of s occurs (R165). -/
theorem launch_of_stopped (img : Image) {s : State} (hstopped : s.run ≠ .running) :
    launch img s = .next (State.ofImage img) := by
  cases hrun : s.run with
  | running => exact absurd hrun hstopped
  | halted => rw [launch, hrun]
  | faulted => rw [launch, hrun]

/-- Settles O49: the launch from a stopped block and the one asked for while it runs. -/
theorem launchKeepsNothingOfTheEarlierRun : Obligations.LaunchKeepsNothingOfTheEarlierRun :=
  fun img _ => ⟨launch_of_stopped img, launch_of_running img⟩

/-! ### The read-outs (R167, R168, R171) -/

/-- A vector is the register file exactly if it lists the eight registers. -/
theorem State.regs_eq_iff (s : State) (v : Vector Word 8) :
    s.regs = v ↔ ∀ r : Reg, v[r.toNat]'r.isLt = s.readReg r := by
  constructor
  · rintro rfl r
    rfl
  · intro hlist
    ext1 i hi
    exact (hlist (BitVec.ofNatLT i hi)).symm

/-- The register read-out presents the register file at Halted and nothing in the other two run states. -/
theorem registerReadOut_eq_some_iff (s : State) (v : Vector Word 8) :
    registerReadOut s = some v ↔ s.run = .halted ∧ s.regs = v := by
  cases hrun : s.run <;> simp [registerReadOut, hrun]

/-- The fault read-out presents the fault record at Faulted and nothing in the other two run states. -/
theorem faultReadOut_eq_some_iff (s : State) (record : FaultCause × Word × Word) :
    faultReadOut s = some record ↔ s.run = .faulted ∧ record = (s.faultCause, s.faultPc, s.faultIr) := by
  cases hrun : s.run <;> simp [faultReadOut, hrun, eq_comm]

/-- Settles O50: what each read-out presents, with the register file and the fault record taken apart. -/
theorem readOutsFollowTheRunState : Obligations.ReadOutsFollowTheRunState := by
  refine fun s => ⟨rfl, fun v => ?_, fun c p w => ?_⟩
  · rw [registerReadOut_eq_some_iff, s.regs_eq_iff]
  · rw [faultReadOut_eq_some_iff, Prod.mk.injEq, Prod.mk.injEq]

end Sys2Proof.Machine
end

/-! ## Canonical memory, the host interface and the sample words -/

section
namespace Sys2Proof.Machine

open Sys2Proof.Safety

/-! ### Canonical memory and its cells (R55; entry 1) -/

/-- A listed cell is what its address reads as: with strictly rising addresses no earlier cell hides it. -/
theorem Memory.read_of_mem {m : Memory} (h : m.Pairwise fun c d => c.1 < d.1) {a v : Word}
    (hmem : (a.toNat, v) ∈ m) : m.read a = v := by
  induction h with
  | nil => cases hmem
  | @cons c m hfirst _ ih =>
    obtain rfl | hrest := List.mem_cons.1 hmem
    · exact if_pos rfl
    · exact (if_neg (hfirst _ hrest).ne).trans (ih hrest)

/-- An address that does not read as the default is listed, with what it reads as. -/
theorem Memory.mem_of_read_ne {m : Memory} {a : Word} (h : m.read a ≠ Config.defaultWord) :
    (a.toNat, m.read a) ∈ m := by
  induction m with
  | nil => exact absurd rfl h
  | cons c m ih =>
    rw [Memory.read] at h ⊢
    split_ifs at h ⊢ with hk
    case pos => exact hk ▸ .head m
    case neg => exact .tail c (ih h)

/-- Every cell of a canonical memory is listed in every memory that reads alike. -/
theorem Memory.subset_of_read_eq {m m' : Memory} (hwf : m.wf) (hread : ∀ a, m.read a = m'.read a) : m ⊆ m' := by
  rintro ⟨k, v⟩ hmem
  obtain ⟨hrising, hcells⟩ := hwf
  obtain ⟨hk, hv⟩ := hcells _ hmem
  obtain ⟨a, rfl⟩ : ∃ a : Word, a.toNat = k := ⟨BitVec.ofNatLT k hk, rfl⟩
  obtain rfl : m'.read a = v := (hread a).symm.trans (Memory.read_of_mem hrising hmem)
  exact Memory.mem_of_read_ne hv

/-- Settles O16: memories that read alike list the same cells, and strictly rising addresses fix their order. -/
theorem memoryIsDeterminedByItsCells : Obligations.MemoryIsDeterminedByItsCells := by
  intro m m' hwf hwf' hread
  have hirrefl : Std.Irrefl fun c d : Nat × Word => c.1 < d.1 := ⟨fun c => Nat.lt_irrefl c.1⟩
  have hantisymm : Std.Antisymm fun c d : Nat × Word => c.1 < d.1 := ⟨fun _ _ h h' => absurd h h'.asymm⟩
  exact (Memory.subset_of_read_eq hwf hread).antisymm_of_pairwise hwf.1 hwf'.1
    (Memory.subset_of_read_eq hwf' fun a => (hread a).symm)

/-! ### The interface to the host (entry 4) -/

/-- A table word of sixteen bits is a word's low sixteen bits. -/
theorem tableWord_sixteen (w : Nat) : tableWord 16 w = BitVec.ofNat 16 w :=
  BitVec.eq_of_toNat_eq (Nat.mod_mod w (2 ^ 16))

/-- The step after a word is placed executes that word. -/
theorem step_placeFetchWord (s : State) (w : Word) :
    step (s.placeFetchWord w) = exec (decode w) (s.placeFetchWord w) := by
  have hfetch : (s.placeFetchWord w).memRead (s.placeFetchWord w).pc = w := s.memRead_memWrite_same s.pc w
  rw [step_of_running (s.placeFetchWord_run w), hfetch]

/-- Settles O2: the placed word is fetched, and placing it is a store at pc that also sets the run state. -/
theorem placedWordIsTheNextInstruction : Obligations.PlacedWordIsTheNextInstruction := by
  intro s w
  rw [State.withFetchWord, decodeTableWord, if_pos le_rfl, tableWord_sixteen]
  exact ⟨step_placeFetchWord s _, rfl, rfl, rfl, fun _ _ => rfl, fun _ hb => s.memRead_memWrite_other _ hb,
    rfl, rfl, rfl⟩

/-! ### Words of 95_test_vectors.md -/

/-- Settles O3, each word as its row's format with the bits that the row does not read written out. -/
theorem sampleWordsDecode : Obligations.SampleWordsDecode :=
  ⟨decode_addImm rfl, decode_addReg (x := 0b11) rfl, decode_andReg (x := 0b11) rfl, decode_andImm rfl,
    decode_not (x := 0b000000) rfl, decode_ld rfl, decode_st 3 2, decode_ldr rfl, decode_str rfl, decode_ldi rfl,
    decode_sti rfl, decode_lea rfl, decode_br rfl, decode_jmp (x := 0b111) (y := 0b111111) rfl, decode_jsr rfl,
    decode_jsrr (x := 0b11) (y := 0b111111) rfl, decode_trap (x := 0x025) rfl, decode_undefined1000 rfl,
    decode_undefined1101 rfl⟩

end Sys2Proof.Machine
end
